-- ==== Sys2Proof/Word.lean ====
section
/-! DEFINITION. The word types of the core (00_scope.md R12, R13): every register and every
memory word is a 32-bit pattern, and addition on it is addition modulo `2^32`. -/

namespace Sys2Proof

/-- A 32-bit pattern: a register, a memory word or an address (R7 `XLEN`, R13). -/
abbrev Word := BitVec 32

/-- A byte of memory or of an image (R34, R47). -/
abbrev Byte := BitVec 8

/-- The 5-bit number of one of the 32 general registers (R19, R64). -/
abbrev RegNum := BitVec 5

end Sys2Proof
end

