-- ==== Sys2Proof/Config.lean ====
section
/-! DEFINITION. The parameters a model of the core takes (00_scope.md R7), as plain data. Their
constraints (R8) and the type of the configurations that meet them stand in WellFormed.lean. The spec
leaves no result of an instruction open, so there is no free value here. -/

namespace Sys2Proof

/-- `LOGICAL_IMM_EXT` (R7, R63): how ANDI and ORI extend their immediate. -/
inductive ImmExt where
  /-- `SIGN`, the reference behaviour. -/
  | sign
  /-- `ZERO`, the corrected mode. -/
  | zero
deriving DecidableEq, Repr

/-- The implementation parameters of R7. -/
structure Params where
  /-- `MEM_BASE`: the base of the memory window (D1). -/
  memBase : Word
  /-- `MEM_SIZE`: the size of the window in bytes (D2). -/
  memSize : Nat
  /-- `HEADER_SIZE`: the image bytes that a load skips (D3). A `Nat`, so `HEADER_SIZE >= 0` (R8) holds. -/
  headerSize : Nat
  /-- `RESET_VECTOR`: `pc` after reset (D4). -/
  resetVector : Word
  /-- `LOGICAL_IMM_EXT` (D8). -/
  logicalImmExt : ImmExt
  /-- `ZERO_TARGET_IS_NO_TRANSFER` (D13). -/
  zeroTargetIsNoTransfer : Bool
  /-- `STRICT_MODE` (D21). -/
  strictMode : Bool
deriving DecidableEq, Repr

/-- The values of the table of R7: the source's reference values, and the spec's own defaults where the
source gives none (D1, D4, D8, D13, D21). -/
def Params.reference : Params where
  memBase := 0x80000000#32
  memSize := 0x400000
  headerSize := 0x1000
  resetVector := 0x80000000#32
  logicalImmExt := .sign
  zeroTargetIsNoTransfer := true
  strictMode := false

end Sys2Proof
end

