-- ==== Sys2Proof/Syntax.lean ====
section
/-! DEFINITION. The ten instructions of the CORE ISA (00_scope.md R2), one constructor for each row of
spec/opcode_table.json, operands in the order of the assembler forms of 30_encoding.md R68. -/

namespace Sys2Proof

/-- An instruction word as decoded. The R-family keeps `shamt` as an operand although no meaning reads it
(R62: its value is ignored), so that no bit of a recognized word is lost. DESIGN CHOICE, safe, log 7. -/
inductive Instr where
  /-- ADD rd, rs, rt (R71). -/
  | add (rd rs rt : RegNum) (shamt : BitVec 5)
  /-- AND rd, rs, rt (R72). -/
  | and (rd rs rt : RegNum) (shamt : BitVec 5)
  /-- OR rd, rs, rt (R73). -/
  | or (rd rs rt : RegNum) (shamt : BitVec 5)
  /-- SLT rd, rs, rt (R74). -/
  | slt (rd rs rt : RegNum) (shamt : BitVec 5)
  /-- ADDI rt, rs, imm (R75). -/
  | addi (rt rs : RegNum) (imm : BitVec 16)
  /-- ANDI rt, rs, imm (R76). -/
  | andi (rt rs : RegNum) (imm : BitVec 16)
  /-- ORI rt, rs, imm (R77). -/
  | ori (rt rs : RegNum) (imm : BitVec 16)
  /-- LW rt, imm(rs) (R78). -/
  | lw (rt rs : RegNum) (imm : BitVec 16)
  /-- J target (R80). -/
  | j (target : BitVec 26)
  /-- JAL target (R81). -/
  | jal (target : BitVec 26)
deriving DecidableEq, Repr

end Sys2Proof
end

