-- ==== Sys2Proof/WellFormed.lean ====
section
/-! DEFINITION. What is well formed. An instruction has no check: each operand has exactly the width of its
field (30_encoding.md R55), so every term of `Instr` is well formed. A configuration has the checks of
00_scope.md R8, and a `Config` cannot be built without them. -/

namespace Sys2Proof

/-- R8: `MEM_BASE mod 4 = 0`. -/
def Params.baseAligned (p : Params) : Bool := p.memBase.toNat % 4 == 0

/-- R8: `MEM_SIZE mod 4 = 0`. -/
def Params.sizeAligned (p : Params) : Bool := p.memSize % 4 == 0

/-- R8: `0 < MEM_SIZE`. -/
def Params.sizePositive (p : Params) : Bool := decide (0 < p.memSize)

/-- R8: `MEM_BASE + MEM_SIZE <= 2^32`, the window does not wrap. -/
def Params.windowFits (p : Params) : Bool := decide (p.memBase.toNat + p.memSize ≤ 2 ^ 32)

/-- R8: `RESET_VECTOR mod 4 = 0`. -/
def Params.vectorAligned (p : Params) : Bool := p.resetVector.toNat % 4 == 0

/-- All the constraints of R8. -/
def Params.wf (p : Params) : Bool :=
  p.baseAligned && p.sizeAligned && p.sizePositive && p.windowFits && p.vectorAligned

/-- A configuration: parameters that meet R8. -/
structure Config extends Params where
  /-- The constraints of R8 hold. -/
  ok : toParams.wf = true
deriving DecidableEq, Repr

/-- R8: "A model must reject a configuration that breaks one of these". -/
def Config.ofParams? (p : Params) : Option Config :=
  if h : p.wf = true then some { toParams := p, ok := h } else none

/-- The configuration of the reference values (R7). -/
def Config.reference : Config where
  toParams := Params.reference
  ok := by decide

end Sys2Proof
end

