-- ==== Sys2Proof/Machine/State.lean ====
section
/-! DEFINITION. The state of the block (10_state.md R18), as plain data, the reasons a step can stop, and the
state right after reset (70_reset_and_hazards.md R104, R105). -/

namespace Sys2Proof.Machine

/-- Why a step would end in `Outcome.fault`: never, so there is no constructor. Without strict mode nothing a
program does faults (60_exceptions.md R89), and a strict-mode fault is a next state that records it in
`State.fault` (R97; DESIGN CHOICE, safe, log 9). Nobody raises one, and that is safe. -/
inductive Fault where
deriving DecidableEq, Repr

/-- Why a step ends in a refusal. -/
inductive Refusal where
  /-- Raised by an arm of `exec` whose instruction has no meaning yet; no arm of this model raises it. Safe:
  nothing can be proved of what the refused instruction does. -/
  | notModelled (mnemonic : String)
deriving DecidableEq, Repr

/-- The two lifecycle states (R32). -/
inductive RunState where
  /-- `Halted`: a step does nothing. -/
  | halted
  /-- `Running`. -/
  | running
deriving DecidableEq, Repr

/-- `Fault(code, info)` of the strict mode (60_exceptions.md R96), one constructor for each code, its
arguments the `info`. -/
inductive StrictFault where
  /-- Code 1: fetch outside the window or misaligned. -/
  | fetchOutOfRange (pc : Word)
  /-- Code 2: Decode returned Unrecognized. -/
  | unrecognized (pc word : Word)
  /-- Code 3: LW outside the window. -/
  | loadOutOfRange (pc ea : Word)
  /-- Code 4: LW in the window, misaligned. -/
  | loadMisaligned (pc ea : Word)
deriving DecidableEq, Repr

/-- The bytes of RAM: (mapped offset, byte) cells, offsets strictly rising, no zero byte listed. An unlisted
offset reads as 0, the contents at construction (R34, D16; DESIGN CHOICE, unsafe, log 5). -/
abbrev Memory := List Host.Cell

/-- The state of the block (R18, with `fault` of R96 and the pending bit of R82), and the configuration it
was constructed with, which nothing writes (DESIGN CHOICE, safe, log 1). -/
structure State where
  /-- The parameters of this instance (00_scope.md R7). -/
  cfg : Config
  /-- `GPR[0..31]` (R19). -/
  gpr : Vector Word 32
  /-- `hi` (R27; its reset value: DESIGN CHOICE, unsafe, log 4). -/
  hi : Word
  /-- `lo` (R27; as `hi`: log 4). -/
  lo : Word
  /-- `pc` (R24). -/
  pc : Word
  /-- `next_pc`, the pending target, 0 for none (R26). -/
  nextPc : Word
  /-- The pending bit kept when `ZERO_TARGET_IS_NO_TRANSFER` is false (R82, D13; DESIGN CHOICE, unsafe, log 3). -/
  pending : Bool
  /-- `cr[0..31]` (R29; as `hi`: log 4). -/
  cr : Vector Word 32
  /-- `ll` (R30; as `hi`: log 4). -/
  ll : Bool
  /-- `run` (R32). -/
  run : RunState
  /-- `fault`, strict mode's record (R96). -/
  fault : Option StrictFault
  /-- `mem` (R34). -/
  mem : Memory
  /-- `image` (R33). -/
  image : Option (List Byte)
deriving DecidableEq, Repr

/-- The state at construction (R105): the reset values of R104, memory all zero, no image. -/
def State.construct (c : Config) : State where
  cfg := c
  gpr := Vector.replicate 32 0#32
  hi := 0#32
  lo := 0#32
  pc := c.resetVector
  nextPc := 0#32
  pending := false
  cr := Vector.replicate 32 0#32
  ll := false
  run := .halted
  fault := none
  mem := []
  image := none

/-- The machine right after reset, in the reference configuration (R7; DESIGN CHOICE, unsafe, log 2). -/
def State.reset : State := State.construct Config.reference

end Sys2Proof.Machine
end

