-- ==== Sys2Proof/Machine/Flags.lean ====
section
/-! DEFINITION. The results of the ALU (40_alu_register.md R70). The CORE ISA has no status flags
(10_state.md R28): nothing records a carry or an overflow, and SLT's comparison is a result like the others. -/

namespace Sys2Proof.Machine

/-- ADD and ADDI: the sum modulo `2^32`, no trap and no record of an overflow (R70, R71, R75; D5: DESIGN
CHOICE, unsafe, log 14). -/
def aluAdd (a b : Word) : Word := a + b

/-- AND and ANDI: bitwise AND (R72, R76). -/
def aluAnd (a b : Word) : Word := a &&& b

/-- OR and ORI: bitwise OR (R73, R77). -/
def aluOr (a b : Word) : Word := a ||| b

/-- SLT: 1 if `a` is less than `b` as two's-complement numbers, else 0 (R74). -/
def aluSlt (a b : Word) : Word := if a.toInt < b.toInt then 1#32 else 0#32

end Sys2Proof.Machine
end

