-- ==== Sys2Proof/Decode.lean ====
section
/-! DEFINITION. The instruction word (30_encoding.md R54 to R56, R58 to R62): its fields, the numbers of the
opcodes and functions in one table, the decoder, the encoder, and the layout of a word in bytes (20_memory.md
R41). The places of `rs`, `rt`, `rd`, `shamt`, `imm` and the numbers are the spec's general knowledge
(D6, D7, G1 to G4). PRESUMED, unsafe, log 6: another numbering decodes every word otherwise. -/

namespace Sys2Proof

/-! The fields of R55. -/

/-- `op = w[31:26]`. -/
def fieldOp (w : Word) : BitVec 6 := w.extractLsb' 26 6

/-- `rs = w[25:21]`. -/
def fieldRs (w : Word) : RegNum := w.extractLsb' 21 5

/-- `rt = w[20:16]`. -/
def fieldRt (w : Word) : RegNum := w.extractLsb' 16 5

/-- `rd = w[15:11]`. -/
def fieldRd (w : Word) : RegNum := w.extractLsb' 11 5

/-- `shamt = w[10:6]`. -/
def fieldShamt (w : Word) : BitVec 5 := w.extractLsb' 6 5

/-- `funct = w[5:0]`. -/
def fieldFunct (w : Word) : BitVec 6 := w.extractLsb' 0 6

/-- `imm = w[15:0]`. -/
def fieldImm (w : Word) : BitVec 16 := w.extractLsb' 0 16

/-- `target = w[25:0]`. -/
def fieldTarget (w : Word) : BitVec 26 := w.extractLsb' 0 26

/-! The one table of numbers (R58 to R61). -/

/-- The primary opcode of the R-family (R58). -/
def opRFamily : BitVec 6 := 0x00#6
/-- The primary opcode of J (R61). -/
def opJ : BitVec 6 := 0x02#6
/-- The primary opcode of JAL (R61). -/
def opJal : BitVec 6 := 0x03#6
/-- The primary opcode of ADDI (R60). -/
def opAddi : BitVec 6 := 0x08#6
/-- The primary opcode of ANDI (R60). -/
def opAndi : BitVec 6 := 0x0C#6
/-- The primary opcode of ORI (R60). -/
def opOri : BitVec 6 := 0x0D#6
/-- The primary opcode of LW (R60). -/
def opLw : BitVec 6 := 0x23#6
/-- The function of ADD (R59). -/
def functAdd : BitVec 6 := 0x20#6
/-- The function of AND (R59). -/
def functAnd : BitVec 6 := 0x24#6
/-- The function of OR (R59). -/
def functOr : BitVec 6 := 0x25#6
/-- The function of SLT (R59). -/
def functSlt : BitVec 6 := 0x2A#6

/-- The two results of decoding (R16): "an explicit decode result variant". -/
inductive Decoded where
  /-- One of the ten instructions. -/
  | recognized (i : Instr)
  /-- Every other word (R65, R86). -/
  | unrecognized
deriving DecidableEq, Repr

/-- The R-family, keyed by `funct` (R59). -/
def decodeR (w : Word) : Decoded :=
  if fieldFunct w = functAdd then .recognized (.add (fieldRd w) (fieldRs w) (fieldRt w) (fieldShamt w))
  else if fieldFunct w = functAnd then .recognized (.and (fieldRd w) (fieldRs w) (fieldRt w) (fieldShamt w))
  else if fieldFunct w = functOr then .recognized (.or (fieldRd w) (fieldRs w) (fieldRt w) (fieldShamt w))
  else if fieldFunct w = functSlt then .recognized (.slt (fieldRd w) (fieldRs w) (fieldRt w) (fieldShamt w))
  else .unrecognized

/-- The I-family, keyed by `op` (R60). -/
def decodeI (w : Word) : Decoded :=
  if fieldOp w = opAddi then .recognized (.addi (fieldRt w) (fieldRs w) (fieldImm w))
  else if fieldOp w = opAndi then .recognized (.andi (fieldRt w) (fieldRs w) (fieldImm w))
  else if fieldOp w = opOri then .recognized (.ori (fieldRt w) (fieldRs w) (fieldImm w))
  else if fieldOp w = opLw then .recognized (.lw (fieldRt w) (fieldRs w) (fieldImm w))
  else .unrecognized

/-- Decode (R58): the family by the primary opcode, then the instruction by the family's key. Total. -/
def decode (w : Word) : Decoded :=
  if fieldOp w = opRFamily then decodeR w
  else if fieldOp w = opJ then .recognized (.j (fieldTarget w))
  else if fieldOp w = opJal then .recognized (.jal (fieldTarget w))
  else decodeI w

/-! Words and bytes: big-endian (R41). -/

/-- The word whose byte at the lowest address is `b0`, in bits 31:24 (R38, R41). -/
def wordOfBytes (b0 b1 b2 b3 : Byte) : Word := b0 ++ b1 ++ b2 ++ b3

/-- The four bytes of a word, the one at the lowest address first (R39, R41). -/
def bytesOfWord (w : Word) : List Byte :=
  [w.extractLsb' 24 8, w.extractLsb' 16 8, w.extractLsb' 8 8, w.extractLsb' 0 8]

/-- Why a sequence of bytes holds no instruction word. -/
inductive DecodeRefusal where
  /-- Fewer than the 4 bytes a decoder always consumes (R54). -/
  | tooFewBytes
deriving DecidableEq, Repr

/-- The decoder on bytes: it consumes exactly 4 of them (R54) and answers the rest. -/
def decodeBytes : List Byte → Except DecodeRefusal (Decoded × List Byte)
  | b0 :: b1 :: b2 :: b3 :: rest => .ok (decode (wordOfBytes b0 b1 b2 b3), rest)
  | _ => .error .tooFewBytes

/-! The encoder, from the same table and the formats of R56. -/

/-- The R format with `op = 0` (R56). -/
def encodeR (funct : BitVec 6) (rd rs rt : RegNum) (shamt : BitVec 5) : Word :=
  opRFamily ++ rs ++ rt ++ rd ++ shamt ++ funct

/-- The I format (R56). -/
def encodeI (op : BitVec 6) (rt rs : RegNum) (imm : BitVec 16) : Word := op ++ rs ++ rt ++ imm

/-- The J format (R56). -/
def encodeJ (op : BitVec 6) (target : BitVec 26) : Word := op ++ target

/-- The word of an instruction. -/
def encode : Instr → Word
  | .add rd rs rt shamt => encodeR functAdd rd rs rt shamt
  | .and rd rs rt shamt => encodeR functAnd rd rs rt shamt
  | .or rd rs rt shamt => encodeR functOr rd rs rt shamt
  | .slt rd rs rt shamt => encodeR functSlt rd rs rt shamt
  | .addi rt rs imm => encodeI opAddi rt rs imm
  | .andi rt rs imm => encodeI opAndi rt rs imm
  | .ori rt rs imm => encodeI opOri rt rs imm
  | .lw rt rs imm => encodeI opLw rt rs imm
  | .j target => encodeJ opJ target
  | .jal target => encodeJ opJal target

/-- What the decoder reads from an instruction whose bits, as spec/opcode_table.json numbers them, are `w`,
the bits from `nbits` on being 0: the word laid out as the memory stores it, then decoded. -/
def decodeTableWord (nbits w : Nat) : Option Instr :=
  match decodeBytes (bytesOfWord (BitVec.ofNat 32 (w % 2 ^ nbits))) with
  | .ok (.recognized i, _) => some i
  | _ => none

end Sys2Proof
end

