-- ==== Sys2Proof/Machine/Ops.lean ====
section
/-! DEFINITION. The named operations over memory and registers: the memory primitives (20_memory.md R35 to
R42), the register primitives (10_state.md R20), the pending transfer and Retire (43_control_transfer.md R82),
instruction fetch (30_encoding.md R57 step 1), and taking a strict-mode fault (60_exceptions.md R97). There is
no return from a fault (R94): only `reset()` clears it. -/

namespace Sys2Proof.Machine

/-! Memory as data (R34). -/

/-- The byte at a mapped offset; an offset that is not listed holds 0 (R34). -/
def Memory.get : Memory → Nat → Byte
  | [], _ => 0#8
  | (a, v) :: m, o => if a = o then v else Memory.get m o

/-- The memory with the byte at one offset replaced, in canonical form. -/
def Memory.set : Memory → Nat → Byte → Memory
  | [], o, v => if v = 0#8 then [] else [(o, v)]
  | (a, w) :: m, o, v =>
    if o < a then (if v = 0#8 then (a, w) :: m else (o, v) :: (a, w) :: m)
    else if a = o then (if v = 0#8 then m else (o, v) :: m)
    else (a, w) :: Memory.set m o v

/-- The memory with a sequence of bytes copied to the offsets from `o` on (R47). -/
def Memory.copy : Memory → Nat → List Byte → Memory
  | m, _, [] => m
  | m, o, b :: bs => Memory.copy (Memory.set m o b) (o + 1) bs

/-- The cells are canonical from the offset `lo` on: offsets strictly rising, no zero byte listed. -/
def Memory.wfFrom : Nat → Memory → Bool
  | _, [] => true
  | lo, (a, v) :: m => decide (lo ≤ a) && v != 0#8 && Memory.wfFrom (a + 1) m

/-- The canonical form, so that memories that read alike are equal data. -/
def Memory.wf (m : Memory) : Bool := Memory.wfFrom 0 m

/-- Every listed offset is below `n`. -/
def Memory.below (n : Nat) (m : Memory) : Bool := m.all fun c => decide (c.1 < n)

/-! The window (R35 to R37). -/

/-- `InWindow(a)` (R36). -/
def inWindow (c : Config) (a : Word) : Bool :=
  decide (c.memBase.toNat ≤ a.toNat) && decide (a.toNat < c.memBase.toNat + c.memSize)

/-- `offset(a)` (R36), meaningful in the window. -/
def offset (c : Config) (a : Word) : Nat := a.toNat - c.memBase.toNat

/-- A word access at `a` reaches memory: in the window and aligned (R37, R38, R39). -/
def wordReaches (c : Config) (a : Word) : Bool := inWindow c a && offset c a % 4 == 0

/-- `mem[o]`. -/
def State.byteAt (s : State) (o : Nat) : Byte := Memory.get s.mem o

/-- `readWord(a)` = `MemRead(a, 4)` (R38): the big-endian word, or 0 where no access reaches memory. -/
def State.readWord (s : State) (a : Word) : Word :=
  if wordReaches s.cfg a then
    wordOfBytes (s.byteAt (offset s.cfg a)) (s.byteAt (offset s.cfg a + 1))
      (s.byteAt (offset s.cfg a + 2)) (s.byteAt (offset s.cfg a + 3))
  else 0#32

/-- `writeWord(a, v)` = `MemWrite(a, 4, v)` (R39): `v` masked to 32 bits, big-endian; nothing where no access
reaches memory (misaligned: D9, DESIGN CHOICE, unsafe, log 14; the type of `v`: DEDUCED, safe, log 15). -/
def State.writeWord (s : State) (a : Word) (v : Nat) : State :=
  if wordReaches s.cfg a then
    { s with mem := Memory.copy s.mem (offset s.cfg a) (bytesOfWord (BitVec.ofNat 32 v)) }
  else s

/-! The register file (R20). -/

/-- `x[r]`: register 0 reads as zero. -/
def State.readReg (s : State) (r : RegNum) : Word :=
  if r = 0#5 then 0#32 else s.gpr[r.toNat]'(r.isLt)

/-- `x[r] <- v`: a write to register 0 changes nothing. -/
def State.writeReg (s : State) (r : RegNum) (v : Word) : State :=
  if r = 0#5 then s else { s with gpr := s.gpr.set r.toNat v r.isLt }

/-! The pending transfer and Retire (R26, R82). -/

/-- `next_pc <- t` by J or JAL; with `ZERO_TARGET_IS_NO_TRANSFER` false the pending bit is set as well (D13). -/
def State.setTransfer (s : State) (t : Word) : State :=
  { s with nextPc := t, pending := if s.cfg.zeroTargetIsNoTransfer then s.pending else true }

/-- Whether a transfer is pending: a non-zero target, or the pending bit where it is kept (R82, D13). -/
def State.transferPending (s : State) : Bool :=
  if s.cfg.zeroTargetIsNoTransfer then s.nextPc != 0#32 else s.pending

/-- Retire (R82): take and clear the pending transfer, or advance `pc` by 4 modulo `2^32` (D12: DESIGN CHOICE, unsafe, log 14). -/
def State.retire (s : State) : State :=
  if s.transferPending then
    { s with
      pc := s.nextPc
      nextPc := 0#32
      pending := if s.cfg.zeroTargetIsNoTransfer then s.pending else false }
  else { s with pc := s.pc + 4#32 }

/-- The end of an instruction that writes one register: write, then retire. -/
def State.finish (s : State) (r : RegNum) (v : Word) : Host.Outcome State Fault Refusal :=
  .next (s.writeReg r v).retire

/-! Strict mode (60_exceptions.md R96, R97). -/

/-- The code of a fault (R96). -/
def StrictFault.code : StrictFault → Nat
  | .fetchOutOfRange _ => 1
  | .unrecognized _ _ => 2
  | .loadOutOfRange _ _ => 3
  | .loadMisaligned _ _ => 4

/-- The `info` of a fault (R96). -/
def StrictFault.info : StrictFault → List Word
  | .fetchOutOfRange pc => [pc]
  | .unrecognized pc w => [pc, w]
  | .loadOutOfRange pc ea => [pc, ea]
  | .loadMisaligned pc ea => [pc, ea]

/-- Taking a fault (R97): record it and halt, nothing else written and no retire. -/
def State.takeFault (s : State) (f : StrictFault) : State := { s with fault := some f, run := .halted }

/-- Step 1, fetch: the word at `pc`, or the fault of code 1 in strict mode (R57, R96). -/
def State.fetch (s : State) : Except StrictFault Word :=
  if s.cfg.strictMode && !wordReaches s.cfg s.pc then .error (.fetchOutOfRange s.pc)
  else .ok (s.readWord s.pc)

end Sys2Proof.Machine
end

