-- ==== Sys2Proof/Machine/Operands.lean ====
section
/-! DEFINITION. The operand forms: immediates and the jump target (30_encoding.md R63) and LW's effective
address (42_load_store.md R78). Register operands are read by `State.readReg` (R64). -/

namespace Sys2Proof.Machine

/-- `imm_s = sext_32(imm)` (R63): ADDI and LW's offset. -/
def immSigned (imm : BitVec 16) : Word := imm.signExtend 32

/-- `imm_log` (R63): sign- or zero-extended by `LOGICAL_IMM_EXT` (R76, R77, D8). -/
def immLogical (c : Config) (imm : BitVec 16) : Word :=
  match c.logicalImmExt with
  | .sign => imm.signExtend 32
  | .zero => imm.zeroExtend 32

/-- `jtarget = (pc & 0xF0000000) | (zext_32(target) << 2)`, `pc` being the jump's own address (R63, R80). -/
def jumpTarget (pc : Word) (target : BitVec 26) : Word :=
  (pc &&& 0xF0000000#32) ||| (target.zeroExtend 32 <<< 2)

/-- LW's effective address, `(x[rs] + sext_32(imm)) mod 2^32` (R78, D12). -/
def State.effectiveAddress (s : State) (rs : RegNum) (imm : BitVec 16) : Word :=
  s.readReg rs + immSigned imm

end Sys2Proof.Machine
end

