-- ==== Sys2Proof/Machine/AluImmediate.lean ====
section
/-! DEFINITION. The immediate ALU instructions (41_alu_immediate.md R75 to R77). The destination is `rt`
(D6, G5; PRESUMED, unsafe, log 6). -/

namespace Sys2Proof.Machine

/-- ADDI (R75). -/
def execAddi (rt rs : RegNum) (imm : BitVec 16) (s : State) : Host.Outcome State Fault Refusal :=
  s.finish rt (aluAdd (s.readReg rs) (immSigned imm))

/-- ANDI (R76). -/
def execAndi (rt rs : RegNum) (imm : BitVec 16) (s : State) : Host.Outcome State Fault Refusal :=
  s.finish rt (aluAnd (s.readReg rs) (immLogical s.cfg imm))

/-- ORI (R77). -/
def execOri (rt rs : RegNum) (imm : BitVec 16) (s : State) : Host.Outcome State Fault Refusal :=
  s.finish rt (aluOr (s.readReg rs) (immLogical s.cfg imm))

end Sys2Proof.Machine
end

