-- ==== Sys2Proof/Machine/AluRegister.lean ====
section
/-! DEFINITION. The register-register instructions (40_alu_register.md R71 to R74). `shamt` is ignored
(30_encoding.md R62). Both sources are read before the destination is written (00_scope.md R17). -/

namespace Sys2Proof.Machine

/-- ADD (R71). -/
def execAdd (rd rs rt : RegNum) (_shamt : BitVec 5) (s : State) : Host.Outcome State Fault Refusal :=
  s.finish rd (aluAdd (s.readReg rs) (s.readReg rt))

/-- AND (R72). -/
def execAnd (rd rs rt : RegNum) (_shamt : BitVec 5) (s : State) : Host.Outcome State Fault Refusal :=
  s.finish rd (aluAnd (s.readReg rs) (s.readReg rt))

/-- OR (R73). -/
def execOr (rd rs rt : RegNum) (_shamt : BitVec 5) (s : State) : Host.Outcome State Fault Refusal :=
  s.finish rd (aluOr (s.readReg rs) (s.readReg rt))

/-- SLT (R74). -/
def execSlt (rd rs rt : RegNum) (_shamt : BitVec 5) (s : State) : Host.Outcome State Fault Refusal :=
  s.finish rd (aluSlt (s.readReg rs) (s.readReg rt))

end Sys2Proof.Machine
end

