-- ==== Sys2Proof/Machine/ControlTransfer.lean ====
section
/-! DEFINITION. The jumps (43_control_transfer.md R80, R81). The transfer is taken by the Retire of the same
step, so there is no delay slot (R84). -/

namespace Sys2Proof.Machine

/-- J (R80). -/
def execJ (target : BitVec 26) (s : State) : Host.Outcome State Fault Refusal :=
  .next (s.setTransfer (jumpTarget s.pc target)).retire

/-- JAL (R81): link `pc + 8` in register 31, then the transfer of J. -/
def execJal (target : BitVec 26) (s : State) : Host.Outcome State Fault Refusal :=
  .next ((s.writeReg 31#5 (s.pc + 8#32)).setTransfer (jumpTarget s.pc target)).retire

end Sys2Proof.Machine
end

