-- ==== Sys2Proof/Machine/LoadStore.lean ====
section
/-! DEFINITION. The load-store unit: LW, its only operation (42_load_store.md R78, R79). -/

namespace Sys2Proof.Machine

/-- The load at an effective address: outside the window `rt` keeps its value, in the window it gets
`MemRead(ea, 4)`, which is 0 where misaligned (R78, C1; D10: DESIGN CHOICE, unsafe, log 14). In strict mode the first two are the faults of
code 3 and 4, checked in that order (R96, R97). -/
def State.loadInto (s : State) (rt : RegNum) (ea : Word) : Host.Outcome State Fault Refusal :=
  if !inWindow s.cfg ea then
    if s.cfg.strictMode then .next (s.takeFault (.loadOutOfRange s.pc ea)) else .next s.retire
  else if s.cfg.strictMode && !wordReaches s.cfg ea then .next (s.takeFault (.loadMisaligned s.pc ea))
  else s.finish rt (s.readWord ea)

/-- LW (R78). -/
def execLw (rt rs : RegNum) (imm : BitVec 16) (s : State) : Host.Outcome State Fault Refusal :=
  s.loadInto rt (s.effectiveAddress rs imm)

end Sys2Proof.Machine
end

