-- ==== Sys2Proof/Machine/Unrecognized.lean ====
section
/-! DEFINITION. What the core does with a word that is none of the ten instructions
(44_system_and_unrecognized.md R86). It is no row of the opcode table, so it is no constructor of `Instr`. -/

namespace Sys2Proof.Machine

/-- The silent no-op: Retire alone (R86); in strict mode the fault of code 2 (60_exceptions.md R96). -/
def execUnrecognized (w : Word) (s : State) : Host.Outcome State Fault Refusal :=
  if s.cfg.strictMode then .next (s.takeFault (.unrecognized s.pc w)) else .next s.retire

end Sys2Proof.Machine
end

