-- ==== Sys2Proof/Machine/Step.lean ====
section
/-! DEFINITION. The step (30_encoding.md R57): fetch, decode, execute, retire; a no-op while Halted. -/

namespace Sys2Proof.Machine

/-- Steps 2 to 4 of R57 on a fetched word. -/
def runWord (w : Word) (s : State) : Host.Outcome State Fault Refusal :=
  match decode w with
  | .recognized i => exec i s
  | .unrecognized => execUnrecognized w s

/-- One step (R57). -/
def step (s : State) : Host.Outcome State Fault Refusal :=
  match s.run with
  | .halted => .next s
  | .running =>
    match s.fetch with
    | .error f => .next (s.takeFault f)
    | .ok w => runWord w s

/-- `s` Running with the instruction word of the low `nbits` bits of `w` stored at `pc`, where the step fetches
(DESIGN CHOICE, safe, log 11). It stands for `loadImage` and `start()`. A `pc` outside the window can hold no word. -/
def State.withFetchWord (s : State) (nbits w : Nat) : State :=
  { s.writeWord s.pc (w % 2 ^ nbits) with run := .running }

end Sys2Proof.Machine
end

