-- ==== Sys2Proof/Machine/Assembly.lean ====
section
/-! DEFINITION. The assembler's forms that are not one instruction's operands as they stand
(30_encoding.md R68, R69; the spec's own notation, D23): the address of a jump, data words, and the
pseudo-instructions. The operands of `Instr`'s constructors stand in the order of R68. -/

namespace Sys2Proof.Machine

/-- The jump field of an address: `address[27:2]` (R68). -/
def jumpField (address : Word) : BitVec 26 := address.extractLsb' 2 26

/-- An address that a jump at `own` can name: one with the same top 4 bits (R68) that is a multiple of 4. R68 does
not say what a misaligned address does; it is refused, since no jump reaches it (R83): DESIGN CHOICE, safe,
log 17. -/
def jumpReaches (own address : Word) : Bool :=
  address.extractLsb' 28 4 == own.extractLsb' 28 4 && address.toNat % 4 == 0

/-- `j address` at the address `own` (R68). -/
def asmJ (own address : Word) : Option Instr :=
  if jumpReaches own address then some (.j (jumpField address)) else none

/-- `jal address` at the address `own` (R68). -/
def asmJal (own address : Word) : Option Instr :=
  if jumpReaches own address then some (.jal (jumpField address)) else none

/-- `.word value` (R68): its bytes in memory. -/
def asmWord (value : Word) : List Byte := bytesOfWord value

/-- `nop` (R69): the zero word, which is Unrecognized. -/
def asmNop : Word := 0#32

/-- `move rd, rs` (R69). -/
def asmMove (rd rs : RegNum) : Instr := .or rd rs 0#5 0#5

/-- `li rt, imm` (R69). -/
def asmLi (rt : RegNum) (imm : BitVec 16) : Instr := .addi rt 0#5 imm

/-- `clear rd` (R69). -/
def asmClear (rd : RegNum) : Instr := .or rd 0#5 0#5 0#5

/-- `halt` at the address `own` (R69): a J to its own address. -/
def asmHalt (own : Word) : Instr := .j (jumpField own)

/-! The text of an instruction (R68; which of its spellings: DESIGN CHOICE, safe, log 16). -/

/-- `r0` to `r31`. -/
def regText (r : RegNum) : String := "r" ++ Nat.repr r.toNat

/-- A signed number in decimal. -/
def intText (n : Int) : String :=
  if n < 0 then "-" ++ Nat.repr n.natAbs else Nat.repr n.natAbs

/-- A word as `0x` and eight hexadecimal digits. -/
def hexText (w : Word) : String :=
  "0x" ++ String.ofList ([28, 24, 20, 16, 12, 8, 4, 0].map fun k =>
    "0123456789ABCDEF".toList.getD (w.extractLsb' k 4).toNat '0')

/-- `mnemonic rd, rs, rt`. -/
def asmTextR (mnemonic : String) (rd rs rt : RegNum) : String :=
  mnemonic ++ " " ++ regText rd ++ ", " ++ regText rs ++ ", " ++ regText rt

/-- `mnemonic rt, rs, imm`, the immediate written signed. -/
def asmTextI (mnemonic : String) (rt rs : RegNum) (imm : BitVec 16) : String :=
  mnemonic ++ " " ++ regText rt ++ ", " ++ regText rs ++ ", " ++ intText imm.toInt

/-- The text of the instruction at the address `own`. `shamt` has no place in it. -/
def asmText (own : Word) : Instr → String
  | .add rd rs rt _ => asmTextR "add" rd rs rt
  | .and rd rs rt _ => asmTextR "and" rd rs rt
  | .or rd rs rt _ => asmTextR "or" rd rs rt
  | .slt rd rs rt _ => asmTextR "slt" rd rs rt
  | .addi rt rs imm => asmTextI "addi" rt rs imm
  | .andi rt rs imm => asmTextI "andi" rt rs imm
  | .ori rt rs imm => asmTextI "ori" rt rs imm
  | .lw rt rs imm => "lw " ++ regText rt ++ ", " ++ intText imm.toInt ++ "(" ++ regText rs ++ ")"
  | .j target => "j " ++ hexText (jumpTarget own target)
  | .jal target => "jal " ++ hexText (jumpTarget own target)

end Sys2Proof.Machine
end

