-- ==== Sys2Proof/Machine/Block.lean ====
section
/-! DEFINITION. The operations of the block's interface (00_scope.md R10), each one atomic transaction between
two steps (D29): the lifecycle (70_reset_and_hazards.md R104 to R110), the image load (20_memory.md R47), the
host's word access and the two dumps (R48, R110). -/

namespace Sys2Proof.Machine

/-- `reset()` (R104): the reset values; `mem`, `image` and the configuration are kept. The pending bit is
cleared with `next_pc` (DESIGN CHOICE, unsafe, log 3). -/
def State.hostReset (s : State) : State :=
  { State.construct s.cfg with mem := s.mem, image := s.image }

/-- The bytes of an image that a load copies: those from `HEADER_SIZE` on, at most `MEM_SIZE` of them (R47). -/
def imagePayload (c : Config) (bytes : List Byte) : List Byte :=
  (bytes.drop c.headerSize).take c.memSize

/-- The copy that `loadImage` and `resetAndReload` make (R47, R108): bytes past the payload are kept (D17). -/
def State.copyImage (s : State) (bytes : List Byte) : State :=
  { s with mem := Memory.copy s.mem 0 (imagePayload s.cfg bytes) }

/-- What `dumpRegisters()` reports (R110). -/
structure RegisterDump where
  /-- `gpr[0..31]`. -/
  gpr : Vector Word 32
  /-- `pc`. -/
  pc : Word
  /-- `hi`. -/
  hi : Word
  /-- `lo`. -/
  lo : Word
deriving DecidableEq, Repr

/-- What an operation answers its caller. -/
inductive Reply where
  /-- The operation succeeded and answers nothing else. -/
  | success
  /-- `loadImage` was given an empty image (R47, R90). -/
  | imageTooSmall
  /-- `start()` with no image loaded (R106, R90). -/
  | noImageLoaded
  /-- A word (R38). -/
  | word (w : Word)
  /-- A register snapshot (R110). -/
  | registers (d : RegisterDump)
  /-- A memory snapshot (R48). -/
  | bytes (l : List Byte)
  /-- A memory dump with an address outside the window: no bytes (R48, D25). -/
  | dumpRefused
deriving DecidableEq, Repr

/-- `loadImage(bytes)` (R47, D31). -/
def State.hostLoadImage (s : State) (bytes : List Byte) : Reply × State :=
  if bytes = [] then (.imageTooSmall, s)
  else (.success, { s.copyImage bytes with image := some bytes }.hostReset)

/-- `start()` (R106): no image, already Running, a sticky fault of the strict mode, or Running. -/
def State.hostStart (s : State) : Reply × State :=
  if s.image = none then (.noImageLoaded, s)
  else if s.run = .running then (.success, s)
  else if s.cfg.strictMode = true ∧ s.fault ≠ none then (.success, s)
  else (.success, { s with run := .running })

/-- `stop()` (R107). -/
def State.hostStop (s : State) : State := { s with run := .halted }

/-- `resetAndReload()` (R108): stop, reset, and the copy of the kept image if there is one. -/
def State.hostResetAndReload (s : State) : State :=
  match s.image with
  | none => s.hostStop.hostReset
  | some bytes => s.hostStop.hostReset.copyImage bytes

/-- `dumpRegisters()` (R110): the registers as `x[i]` reads them, so `gpr[0]` is 0 (R20; DESIGN CHOICE, safe, log 16). -/
def State.dumpRegisters (s : State) : RegisterDump where
  gpr := s.gpr.set 0 0#32
  pc := s.pc
  hi := s.hi
  lo := s.lo

/-- Every one of the addresses `a`, ..., `a + n - 1` is in the window (R48). The addresses do not wrap
(DEDUCED, unsafe, log 10). -/
def dumpInWindow (c : Config) (a : Word) (n : Nat) : Bool :=
  n == 0 || (decide (c.memBase.toNat ≤ a.toNat) && decide (a.toNat + n ≤ c.memBase.toNat + c.memSize))

/-- `dumpMemory(a, n)` (R48). -/
def State.dumpMemory (s : State) (a : Word) (n : Nat) : Reply :=
  if dumpInWindow s.cfg a n then
    .bytes ((List.range n).map fun k => s.byteAt (offset s.cfg a + k))
  else .dumpRefused

/-- The operations of the interface (R10). -/
inductive BlockOp where
  /-- `step()`, called by the scheduler. -/
  | step
  /-- `reset()`. -/
  | reset
  /-- `start()`. -/
  | start
  /-- `stop()`. -/
  | stop
  /-- `resetAndReload()`. -/
  | resetAndReload
  /-- `loadImage(bytes)`. -/
  | loadImage (bytes : List Byte)
  /-- `readWord(a)`. -/
  | readWord (a : Word)
  /-- `writeWord(a, v)`; `v` may be wider than 32 bits (R39). -/
  | writeWord (a : Word) (v : Nat)
  /-- `dumpRegisters()`. -/
  | dumpRegisters
  /-- `dumpMemory(a, n)`. -/
  | dumpMemory (a : Word) (n : Nat)
deriving DecidableEq, Repr

/-- A step as an operation. -/
def State.stepOp (s : State) : Option (Reply × State) :=
  match Sys2Proof.Machine.step s with
  | .next t => some (.success, t)
  | .fault _ => none
  | .refused _ => none

/-- An operation that changes memory: no move while Running (R109, D18, D22; DEDUCED, unsafe, log 13). -/
def State.whileHalted (s : State) (r : Reply × State) : Option (Reply × State) :=
  if s.run = .running then none else some r

/-- One operation of the interface: its reply and the state after it, or no move (R109). -/
def perform (op : BlockOp) (s : State) : Option (Reply × State) :=
  match op with
  | .step => s.stepOp
  | .reset => some (.success, s.hostReset)
  | .start => some s.hostStart
  | .stop => some (.success, s.hostStop)
  | .resetAndReload => some (.success, s.hostResetAndReload)
  | .loadImage bytes => s.whileHalted (s.hostLoadImage bytes)
  | .readWord a => some (.word (s.readWord a), s)
  | .writeWord a v => s.whileHalted (.success, s.writeWord a v)
  | .dumpRegisters => some (.registers s.dumpRegisters, s)
  | .dumpMemory a n => some (s.dumpMemory a n, s)

end Sys2Proof.Machine
end

