-- ==== Sys2Proof/Safety.lean ====
section
/-! DEFINITION. The properties of a state that claims speak of: no pending transfer, the invariant of the
block, and the end of a run (70_reset_and_hazards.md R111). -/

namespace Sys2Proof.Machine

/-- No transfer is pending, as between any two steps (10_state.md R26; the bit: DESIGN CHOICE, unsafe, log 3). -/
abbrev State.Quiet (s : State) : Prop := s.nextPc = 0#32 ∧ s.pending = false

/-- `pc` is a multiple of 4 (R24). -/
abbrev State.PcAligned (s : State) : Prop := s.pc.toNat % 4 = 0

/-- Memory is canonical and lies in the buffer of `MEM_SIZE` bytes (R34). -/
abbrev State.MemOk (s : State) : Prop :=
  Memory.wf s.mem = true ∧ Memory.below s.cfg.memSize s.mem = true

/-- Stored register 0 and the registers that nothing writes hold 0 (R20, R27, R29, R30). -/
abbrev State.InertZero (s : State) : Prop :=
  s.gpr[0] = 0#32 ∧ s.hi = 0#32 ∧ s.lo = 0#32 ∧ s.cr = Vector.replicate 32 0#32 ∧ s.ll = false

/-- `fault` stays `none` without strict mode, and a recorded fault keeps the core Halted (R96, R97). -/
abbrev State.FaultOk (s : State) : Prop :=
  (s.cfg.strictMode = false → s.fault = none) ∧ (s.fault ≠ none → s.run = .halted)

/-- Only a loaded image lets the core run, and a kept image is never empty (R33, R106). -/
abbrev State.ImageOk (s : State) : Prop :=
  (s.run = .running → s.image ≠ none) ∧ s.image ≠ some []

/-- The invariant of the block. -/
abbrev State.Inv (s : State) : Prop :=
  s.Quiet ∧ s.PcAligned ∧ s.MemOk ∧ s.InertZero ∧ s.FaultOk ∧ s.ImageOk

/-- The second end of a run (R111): the word at `pc` is a J whose target is its own address
(at address 0: DEDUCED, safe, log 12). -/
def State.atSelfLoop (s : State) : Bool :=
  match decode (s.readWord s.pc) with
  | .recognized (.j target) => jumpTarget s.pc target == s.pc
  | _ => false

end Sys2Proof.Machine
end

