-- ==== Sys2Proof/Laws/State.lean ====
section
/-! SUPPORT. For each operation that updates the state, one lemma for each field: what the field is afterwards.
They are simp lemmas, so no later proof unfolds a record update. -/

namespace Sys2Proof.Machine

variable (s : State)

/-! `writeReg`. -/

@[simp] theorem State.writeReg_cfg (r : RegNum) (v : Word) : (s.writeReg r v).cfg = s.cfg := by
  unfold State.writeReg; split <;> rfl

@[simp] theorem State.writeReg_hi (r : RegNum) (v : Word) : (s.writeReg r v).hi = s.hi := by
  unfold State.writeReg; split <;> rfl

@[simp] theorem State.writeReg_lo (r : RegNum) (v : Word) : (s.writeReg r v).lo = s.lo := by
  unfold State.writeReg; split <;> rfl

@[simp] theorem State.writeReg_pc (r : RegNum) (v : Word) : (s.writeReg r v).pc = s.pc := by
  unfold State.writeReg; split <;> rfl

@[simp] theorem State.writeReg_nextPc (r : RegNum) (v : Word) : (s.writeReg r v).nextPc = s.nextPc := by
  unfold State.writeReg; split <;> rfl

@[simp] theorem State.writeReg_pending (r : RegNum) (v : Word) : (s.writeReg r v).pending = s.pending := by
  unfold State.writeReg; split <;> rfl

@[simp] theorem State.writeReg_cr (r : RegNum) (v : Word) : (s.writeReg r v).cr = s.cr := by
  unfold State.writeReg; split <;> rfl

@[simp] theorem State.writeReg_ll (r : RegNum) (v : Word) : (s.writeReg r v).ll = s.ll := by
  unfold State.writeReg; split <;> rfl

@[simp] theorem State.writeReg_run (r : RegNum) (v : Word) : (s.writeReg r v).run = s.run := by
  unfold State.writeReg; split <;> rfl

@[simp] theorem State.writeReg_fault (r : RegNum) (v : Word) : (s.writeReg r v).fault = s.fault := by
  unfold State.writeReg; split <;> rfl

@[simp] theorem State.writeReg_mem (r : RegNum) (v : Word) : (s.writeReg r v).mem = s.mem := by
  unfold State.writeReg; split <;> rfl

@[simp] theorem State.writeReg_image (r : RegNum) (v : Word) : (s.writeReg r v).image = s.image := by
  unfold State.writeReg; split <;> rfl

/-! `writeWord`. -/

@[simp] theorem State.writeWord_cfg (a : Word) (v : Nat) : (s.writeWord a v).cfg = s.cfg := by
  unfold State.writeWord; split <;> rfl

@[simp] theorem State.writeWord_gpr (a : Word) (v : Nat) : (s.writeWord a v).gpr = s.gpr := by
  unfold State.writeWord; split <;> rfl

@[simp] theorem State.writeWord_hi (a : Word) (v : Nat) : (s.writeWord a v).hi = s.hi := by
  unfold State.writeWord; split <;> rfl

@[simp] theorem State.writeWord_lo (a : Word) (v : Nat) : (s.writeWord a v).lo = s.lo := by
  unfold State.writeWord; split <;> rfl

@[simp] theorem State.writeWord_pc (a : Word) (v : Nat) : (s.writeWord a v).pc = s.pc := by
  unfold State.writeWord; split <;> rfl

@[simp] theorem State.writeWord_nextPc (a : Word) (v : Nat) : (s.writeWord a v).nextPc = s.nextPc := by
  unfold State.writeWord; split <;> rfl

@[simp] theorem State.writeWord_pending (a : Word) (v : Nat) : (s.writeWord a v).pending = s.pending := by
  unfold State.writeWord; split <;> rfl

@[simp] theorem State.writeWord_cr (a : Word) (v : Nat) : (s.writeWord a v).cr = s.cr := by
  unfold State.writeWord; split <;> rfl

@[simp] theorem State.writeWord_ll (a : Word) (v : Nat) : (s.writeWord a v).ll = s.ll := by
  unfold State.writeWord; split <;> rfl

@[simp] theorem State.writeWord_run (a : Word) (v : Nat) : (s.writeWord a v).run = s.run := by
  unfold State.writeWord; split <;> rfl

@[simp] theorem State.writeWord_fault (a : Word) (v : Nat) : (s.writeWord a v).fault = s.fault := by
  unfold State.writeWord; split <;> rfl

@[simp] theorem State.writeWord_image (a : Word) (v : Nat) : (s.writeWord a v).image = s.image := by
  unfold State.writeWord; split <;> rfl

/-! `setTransfer`. -/

@[simp] theorem State.setTransfer_cfg (t : Word) : (s.setTransfer t).cfg = s.cfg := rfl

@[simp] theorem State.setTransfer_gpr (t : Word) : (s.setTransfer t).gpr = s.gpr := rfl

@[simp] theorem State.setTransfer_hi (t : Word) : (s.setTransfer t).hi = s.hi := rfl

@[simp] theorem State.setTransfer_lo (t : Word) : (s.setTransfer t).lo = s.lo := rfl

@[simp] theorem State.setTransfer_pc (t : Word) : (s.setTransfer t).pc = s.pc := rfl

@[simp] theorem State.setTransfer_nextPc (t : Word) : (s.setTransfer t).nextPc = t := rfl

@[simp] theorem State.setTransfer_pending (t : Word) : (s.setTransfer t).pending = if s.cfg.zeroTargetIsNoTransfer then s.pending else true := rfl

@[simp] theorem State.setTransfer_cr (t : Word) : (s.setTransfer t).cr = s.cr := rfl

@[simp] theorem State.setTransfer_ll (t : Word) : (s.setTransfer t).ll = s.ll := rfl

@[simp] theorem State.setTransfer_run (t : Word) : (s.setTransfer t).run = s.run := rfl

@[simp] theorem State.setTransfer_fault (t : Word) : (s.setTransfer t).fault = s.fault := rfl

@[simp] theorem State.setTransfer_mem (t : Word) : (s.setTransfer t).mem = s.mem := rfl

@[simp] theorem State.setTransfer_image (t : Word) : (s.setTransfer t).image = s.image := rfl

/-! `retire`. -/

@[simp] theorem State.retire_cfg : s.retire.cfg = s.cfg := by
  unfold State.retire; split <;> rfl

@[simp] theorem State.retire_gpr : s.retire.gpr = s.gpr := by
  unfold State.retire; split <;> rfl

@[simp] theorem State.retire_hi : s.retire.hi = s.hi := by
  unfold State.retire; split <;> rfl

@[simp] theorem State.retire_lo : s.retire.lo = s.lo := by
  unfold State.retire; split <;> rfl

@[simp] theorem State.retire_cr : s.retire.cr = s.cr := by
  unfold State.retire; split <;> rfl

@[simp] theorem State.retire_ll : s.retire.ll = s.ll := by
  unfold State.retire; split <;> rfl

@[simp] theorem State.retire_run : s.retire.run = s.run := by
  unfold State.retire; split <;> rfl

@[simp] theorem State.retire_fault : s.retire.fault = s.fault := by
  unfold State.retire; split <;> rfl

@[simp] theorem State.retire_mem : s.retire.mem = s.mem := by
  unfold State.retire; split <;> rfl

@[simp] theorem State.retire_image : s.retire.image = s.image := by
  unfold State.retire; split <;> rfl

/-! `takeFault`. -/

@[simp] theorem State.takeFault_cfg (f : StrictFault) : (s.takeFault f).cfg = s.cfg := rfl

@[simp] theorem State.takeFault_gpr (f : StrictFault) : (s.takeFault f).gpr = s.gpr := rfl

@[simp] theorem State.takeFault_hi (f : StrictFault) : (s.takeFault f).hi = s.hi := rfl

@[simp] theorem State.takeFault_lo (f : StrictFault) : (s.takeFault f).lo = s.lo := rfl

@[simp] theorem State.takeFault_pc (f : StrictFault) : (s.takeFault f).pc = s.pc := rfl

@[simp] theorem State.takeFault_nextPc (f : StrictFault) : (s.takeFault f).nextPc = s.nextPc := rfl

@[simp] theorem State.takeFault_pending (f : StrictFault) : (s.takeFault f).pending = s.pending := rfl

@[simp] theorem State.takeFault_cr (f : StrictFault) : (s.takeFault f).cr = s.cr := rfl

@[simp] theorem State.takeFault_ll (f : StrictFault) : (s.takeFault f).ll = s.ll := rfl

@[simp] theorem State.takeFault_run (f : StrictFault) : (s.takeFault f).run = .halted := rfl

@[simp] theorem State.takeFault_fault (f : StrictFault) : (s.takeFault f).fault = some f := rfl

@[simp] theorem State.takeFault_mem (f : StrictFault) : (s.takeFault f).mem = s.mem := rfl

@[simp] theorem State.takeFault_image (f : StrictFault) : (s.takeFault f).image = s.image := rfl

/-! `copyImage`. -/

@[simp] theorem State.copyImage_cfg (bytes : List Byte) : (s.copyImage bytes).cfg = s.cfg := rfl

@[simp] theorem State.copyImage_gpr (bytes : List Byte) : (s.copyImage bytes).gpr = s.gpr := rfl

@[simp] theorem State.copyImage_hi (bytes : List Byte) : (s.copyImage bytes).hi = s.hi := rfl

@[simp] theorem State.copyImage_lo (bytes : List Byte) : (s.copyImage bytes).lo = s.lo := rfl

@[simp] theorem State.copyImage_pc (bytes : List Byte) : (s.copyImage bytes).pc = s.pc := rfl

@[simp] theorem State.copyImage_nextPc (bytes : List Byte) : (s.copyImage bytes).nextPc = s.nextPc := rfl

@[simp] theorem State.copyImage_pending (bytes : List Byte) : (s.copyImage bytes).pending = s.pending := rfl

@[simp] theorem State.copyImage_cr (bytes : List Byte) : (s.copyImage bytes).cr = s.cr := rfl

@[simp] theorem State.copyImage_ll (bytes : List Byte) : (s.copyImage bytes).ll = s.ll := rfl

@[simp] theorem State.copyImage_run (bytes : List Byte) : (s.copyImage bytes).run = s.run := rfl

@[simp] theorem State.copyImage_fault (bytes : List Byte) : (s.copyImage bytes).fault = s.fault := rfl

@[simp] theorem State.copyImage_mem (bytes : List Byte) : (s.copyImage bytes).mem = Memory.copy s.mem 0 (imagePayload s.cfg bytes) := rfl

@[simp] theorem State.copyImage_image (bytes : List Byte) : (s.copyImage bytes).image = s.image := rfl

/-! `hostStop`. -/

@[simp] theorem State.hostStop_cfg : s.hostStop.cfg = s.cfg := rfl

@[simp] theorem State.hostStop_gpr : s.hostStop.gpr = s.gpr := rfl

@[simp] theorem State.hostStop_hi : s.hostStop.hi = s.hi := rfl

@[simp] theorem State.hostStop_lo : s.hostStop.lo = s.lo := rfl

@[simp] theorem State.hostStop_pc : s.hostStop.pc = s.pc := rfl

@[simp] theorem State.hostStop_nextPc : s.hostStop.nextPc = s.nextPc := rfl

@[simp] theorem State.hostStop_pending : s.hostStop.pending = s.pending := rfl

@[simp] theorem State.hostStop_cr : s.hostStop.cr = s.cr := rfl

@[simp] theorem State.hostStop_ll : s.hostStop.ll = s.ll := rfl

@[simp] theorem State.hostStop_run : s.hostStop.run = .halted := rfl

@[simp] theorem State.hostStop_fault : s.hostStop.fault = s.fault := rfl

@[simp] theorem State.hostStop_mem : s.hostStop.mem = s.mem := rfl

@[simp] theorem State.hostStop_image : s.hostStop.image = s.image := rfl

/-! `hostReset`. -/

@[simp] theorem State.hostReset_cfg : s.hostReset.cfg = s.cfg := rfl

@[simp] theorem State.hostReset_gpr : s.hostReset.gpr = Vector.replicate 32 0#32 := rfl

@[simp] theorem State.hostReset_hi : s.hostReset.hi = 0#32 := rfl

@[simp] theorem State.hostReset_lo : s.hostReset.lo = 0#32 := rfl

@[simp] theorem State.hostReset_pc : s.hostReset.pc = s.cfg.resetVector := rfl

@[simp] theorem State.hostReset_nextPc : s.hostReset.nextPc = 0#32 := rfl

@[simp] theorem State.hostReset_pending : s.hostReset.pending = false := rfl

@[simp] theorem State.hostReset_cr : s.hostReset.cr = Vector.replicate 32 0#32 := rfl

@[simp] theorem State.hostReset_ll : s.hostReset.ll = false := rfl

@[simp] theorem State.hostReset_run : s.hostReset.run = .halted := rfl

@[simp] theorem State.hostReset_fault : s.hostReset.fault = none := rfl

@[simp] theorem State.hostReset_mem : s.hostReset.mem = s.mem := rfl

@[simp] theorem State.hostReset_image : s.hostReset.image = s.image := rfl

end Sys2Proof.Machine
end

