-- ==== Sys2Proof/Laws/Memory.lean ====
section
/-! SUPPORT. The laws of memory as data: what a byte reads as after a write, and that every operation keeps
the canonical form. -/

namespace Sys2Proof.Machine

theorem Memory.get_set (m : Memory) (o p : Nat) (v : Byte) (h : m.wf = true) :
    (m.set o v).get p = if p = o then v else m.get p := by
  suffices H : ∀ (m : Memory) (lo : Nat), Memory.wfFrom lo m = true →
      ((m.set o v).get p = if p = o then v else m.get p) ∧ (p < lo → m.get p = 0#8) from (H m 0 h).1
  intro m
  induction m with
  | nil =>
    intro lo _
    by_cases hv : v = 0#8 <;> by_cases hp : p = o <;> simp [Memory.set, Memory.get, hv, hp, Ne.symm]
  | cons c m ih =>
    obtain ⟨a, w⟩ := c
    intro lo hw
    simp only [Memory.wfFrom, Bool.and_eq_true, decide_eq_true_eq] at hw
    obtain ⟨⟨hlo, -⟩, hm⟩ := hw
    obtain ⟨hset, hlow⟩ := ih (a + 1) hm
    refine ⟨?_, fun hp => ?_⟩
    · rcases Nat.lt_trichotomy o a with ho | ho | ho
      · by_cases hp : p = o
        · subst hp
          have hz := hlow (by omega)
          have hne : ¬ a = p := by omega
          by_cases hv : v = 0#8 <;> simp [Memory.set, Memory.get, ho, hv, hne, hz]
        · have hop : ¬ o = p := fun e => hp e.symm
          by_cases hv : v = 0#8 <;> simp [Memory.set, Memory.get, ho, hv, hp, hop]
      · subst ho
        by_cases hp : p = o
        · subst hp
          have hz := hlow (by omega)
          by_cases hv : v = 0#8 <;> simp [Memory.set, Memory.get, hv, hz]
        · have hop : ¬ o = p := fun e => hp e.symm
          by_cases hv : v = 0#8 <;> simp [Memory.set, Memory.get, hv, hp, hop]
      · have h1 : ¬ o < a := by omega
        have h2 : ¬ a = o := by omega
        by_cases hp : a = p
        · subst hp
          simp [Memory.set, Memory.get, h1, h2]
        · simp [Memory.set, Memory.get, h1, h2, hp, hset]
    · have hne : ¬ a = p := by omega
      simp only [Memory.get, if_neg hne]
      exact hlow (by omega)

theorem Memory.wfFrom_mono {m : Memory} {lo lo' : Nat} (hle : lo' ≤ lo) (h : Memory.wfFrom lo m = true) :
    Memory.wfFrom lo' m = true := by
  cases m with
  | nil => rfl
  | cons c m =>
    simp only [Memory.wfFrom, Bool.and_eq_true, decide_eq_true_eq] at h ⊢
    exact ⟨⟨by omega, h.1.2⟩, h.2⟩

theorem Memory.wfFrom_set (m : Memory) (lo o : Nat) (v : Byte) (hlo : lo ≤ o)
    (h : Memory.wfFrom lo m = true) : Memory.wfFrom lo (m.set o v) = true := by
  induction m generalizing lo with
  | nil => by_cases hv : v = 0#8 <;> simp [Memory.set, Memory.wfFrom, hv, hlo]
  | cons c m ih =>
    obtain ⟨a, w⟩ := c
    have h' := h
    simp only [Memory.wfFrom, Bool.and_eq_true, decide_eq_true_eq] at h
    obtain ⟨⟨hla, hw⟩, hm⟩ := h
    unfold Memory.set
    split
    · split
      · exact h'
      · rename_i ho hv
        simp only [Memory.wfFrom, Bool.and_eq_true, decide_eq_true_eq]
        exact ⟨⟨hlo, by simpa using hv⟩, ⟨by omega, hw⟩, hm⟩
    · split
      · split
        · exact Memory.wfFrom_mono (by omega) hm
        · rename_i ha hv
          subst ha
          simp only [Memory.wfFrom, Bool.and_eq_true, decide_eq_true_eq]
          exact ⟨⟨hlo, by simpa using hv⟩, hm⟩
      · simp only [Memory.wfFrom, Bool.and_eq_true, decide_eq_true_eq]
        exact ⟨⟨hla, hw⟩, ih (a + 1) (by omega) hm⟩

theorem Memory.wf_set (m : Memory) (o : Nat) (v : Byte) (h : m.wf = true) : (m.set o v).wf = true :=
  Memory.wfFrom_set m 0 o v (Nat.zero_le o) h

theorem Memory.wf_copy (bs : List Byte) (m : Memory) (o : Nat) (h : m.wf = true) :
    (m.copy o bs).wf = true := by
  induction bs generalizing m o with
  | nil => exact h
  | cons b bs ih => exact ih _ _ (Memory.wf_set m o b h)

theorem Memory.below_cons (n a : Nat) (w : Byte) (m : Memory) :
    Memory.below n ((a, w) :: m) = true ↔ a < n ∧ Memory.below n m = true := by
  simp [Memory.below]

theorem Memory.below_set (m : Memory) (n o : Nat) (v : Byte) (ho : o < n) (h : m.below n = true) :
    (m.set o v).below n = true := by
  induction m with
  | nil => by_cases hv : v = 0#8 <;> simp [Memory.set, Memory.below, hv, ho]
  | cons c m ih =>
    obtain ⟨a, w⟩ := c
    rw [Memory.below_cons] at h
    unfold Memory.set
    split
    · split
      · exact (Memory.below_cons ..).2 h
      · exact (Memory.below_cons ..).2 ⟨ho, (Memory.below_cons ..).2 h⟩
    · split
      · split
        · exact h.2
        · exact (Memory.below_cons ..).2 ⟨ho, h.2⟩
      · exact (Memory.below_cons ..).2 ⟨h.1, ih h.2⟩

theorem Memory.below_copy (bs : List Byte) (m : Memory) (n o : Nat) (ho : o + bs.length ≤ n)
    (h : m.below n = true) : (m.copy o bs).below n = true := by
  induction bs generalizing m o with
  | nil => exact h
  | cons b bs ih =>
    simp only [List.length_cons] at ho
    exact ih _ _ (by omega) (Memory.below_set m n o b (by omega) h)

theorem Memory.get_copy (bs : List Byte) (m : Memory) (o p : Nat) (h : m.wf = true) :
    (m.copy o bs).get p = if hp : o ≤ p ∧ p < o + bs.length then bs[p - o] else m.get p := by
  induction bs generalizing m o with
  | nil => simp [Memory.copy]
  | cons b bs ih =>
    rw [Memory.copy, ih _ _ (Memory.wf_set m o b h), Memory.get_set m o p b h]
    simp only [List.length_cons]
    by_cases h1 : p = o
    · subst h1
      rw [dif_neg (by omega), dif_pos (by omega)]
      simp
    · by_cases h2 : o + 1 ≤ p ∧ p < o + 1 + bs.length
      · rw [dif_pos h2, dif_pos (by omega)]
        obtain ⟨k, rfl⟩ : ∃ k, p = o + 1 + k := ⟨p - (o + 1), by omega⟩
        have e1 : o + 1 + k - (o + 1) = k := by omega
        have e2 : o + 1 + k - o = k + 1 := by omega
        simp [e1, e2]
      · rw [dif_neg h2, dif_neg (by omega), if_neg h1]

theorem Memory.get_eq_zero_of_below {m : Memory} {n p : Nat} (h : m.below n = true) (hp : n ≤ p) :
    m.get p = 0#8 := by
  induction m with
  | nil => rfl
  | cons c m ih =>
    obtain ⟨a, w⟩ := c
    simp only [Memory.below, List.all_cons, Bool.and_eq_true, decide_eq_true_eq] at h
    have hne : ¬ a = p := by omega
    simp only [Memory.get, if_neg hne]
    exact ih h.2

theorem Memory.get_eq_zero_of_wfFrom {m : Memory} {lo p : Nat} (h : Memory.wfFrom lo m = true) (hp : p < lo) :
    m.get p = 0#8 := by
  induction m generalizing lo with
  | nil => rfl
  | cons c m ih =>
    obtain ⟨a, w⟩ := c
    simp only [Memory.wfFrom, Bool.and_eq_true, decide_eq_true_eq] at h
    have hne : ¬ a = p := by omega
    simp only [Memory.get, if_neg hne]
    exact ih h.2 (by omega)

/-- Canonical memories that read alike are equal data. -/
theorem Memory.eq_of_get_eq {m m' : Memory} {lo : Nat} (h : Memory.wfFrom lo m = true)
    (h' : Memory.wfFrom lo m' = true) (he : ∀ p, m.get p = m'.get p) : m = m' := by
  induction m generalizing m' lo with
  | nil =>
    cases m' with
    | nil => rfl
    | cons c m' =>
      obtain ⟨a, w⟩ := c
      simp only [Memory.wfFrom, Bool.and_eq_true, decide_eq_true_eq] at h'
      have := he a
      simp [Memory.get] at this
      simp [← this] at h'
  | cons c m ih =>
    obtain ⟨a, w⟩ := c
    simp only [Memory.wfFrom, Bool.and_eq_true, decide_eq_true_eq] at h
    have ha : (Memory.get ((a, w) :: m) a) = w := by simp [Memory.get]
    have hw : w ≠ 0#8 := by simpa using h.1.2
    cases m' with
    | nil => exact absurd (ha.symm.trans (he a)) hw
    | cons c' m' =>
      obtain ⟨b, x⟩ := c'
      simp only [Memory.wfFrom, Bool.and_eq_true, decide_eq_true_eq] at h'
      have hb : (Memory.get ((b, x) :: m') b) = x := by simp [Memory.get]
      have hx : x ≠ 0#8 := by simpa using h'.1.2
      have hab : a = b := by
        rcases Nat.lt_trichotomy a b with hlt | heq | hgt
        · have hz : Memory.get ((b, x) :: m') a = 0#8 := by
            have hne : ¬ b = a := by omega
            simp only [Memory.get, if_neg hne]
            exact Memory.get_eq_zero_of_wfFrom h'.2 (by omega)
          exact absurd (ha.symm.trans ((he a).trans hz)) hw
        · exact heq
        · have hz : Memory.get ((a, w) :: m) b = 0#8 := by
            have hne : ¬ a = b := by omega
            simp only [Memory.get, if_neg hne]
            exact Memory.get_eq_zero_of_wfFrom h.2 (by omega)
          exact absurd (hb.symm.trans ((he b).symm.trans hz)) hx
      subst hab
      have hwx : w = x := by rw [← ha, he a, hb]
      subst hwx
      have hrest : m = m' := by
        refine ih h.2 h'.2 fun p => ?_
        by_cases hp : a = p
        · subst hp
          rw [Memory.get_eq_zero_of_wfFrom h.2 (by omega), Memory.get_eq_zero_of_wfFrom h'.2 (by omega)]
        · simpa [Memory.get, hp] using he p
      rw [hrest]

/-- The memory of `State.reset` has the canonical form. -/
theorem State.reset_mem_wf : Memory.wf State.reset.mem = true := rfl

/-- A host word write keeps the canonical form. -/
theorem State.writeWord_mem_wf (s : State) (a : Word) (v : Nat) (h : Memory.wf s.mem = true) :
    Memory.wf (s.writeWord a v).mem = true := by
  unfold State.writeWord
  split
  · exact Memory.wf_copy _ _ _ h
  · exact h

/-- An image copy keeps the canonical form. -/
theorem State.copyImage_mem_wf (s : State) (bytes : List Byte) (h : Memory.wf s.mem = true) :
    Memory.wf (s.copyImage bytes).mem = true :=
  Memory.wf_copy _ _ _ h

end Sys2Proof.Machine
end

