-- ==== Sys2Proof/Laws/Ops.lean ====
section
/-! SUPPORT. One lemma for each shared operation that says what it does, and one that says once what an
instruction and a step can do. -/

namespace Sys2Proof.Machine

/-! The register file (R20). -/

@[simp] theorem State.readReg_zero (s : State) : s.readReg 0#5 = 0#32 := rfl

@[simp] theorem State.writeReg_zero (s : State) (v : Word) : s.writeReg 0#5 v = s := rfl

theorem State.readReg_writeReg (s : State) (r q : RegNum) (v : Word) :
    (s.writeReg r v).readReg q = if q = r ∧ q ≠ 0#5 then v else s.readReg q := by
  by_cases hr : r = 0#5
  · subst hr
    by_cases hq : q = 0#5 <;> simp [hq]
  · by_cases hq : q = 0#5
    · subst hq
      simp
    · by_cases hqr : q = r
      · subst hqr
        simp [State.readReg, State.writeReg, hq]
      · have hn : r.toNat ≠ q.toNat := fun e => hqr (BitVec.eq_of_toNat_eq e.symm)
        simp [State.readReg, State.writeReg, hr, hq, hqr, hn]

/-- Reading a register looks at the register file alone. -/
theorem State.readReg_congr {s t : State} (h : t.gpr = s.gpr) (r : RegNum) : t.readReg r = s.readReg r := by
  simp [State.readReg, h]

@[simp] theorem State.readReg_retire (s : State) (r : RegNum) : s.retire.readReg r = s.readReg r :=
  State.readReg_congr (State.retire_gpr s) r

@[simp] theorem State.readReg_setTransfer (s : State) (t : Word) (r : RegNum) :
    (s.setTransfer t).readReg r = s.readReg r := rfl

@[simp] theorem State.readReg_takeFault (s : State) (f : StrictFault) (r : RegNum) :
    (s.takeFault f).readReg r = s.readReg r := rfl

/-- A register write never touches the stored register 0 (R20). -/
theorem State.writeReg_gpr_zero (s : State) (r : RegNum) (v : Word) : (s.writeReg r v).gpr[0] = s.gpr[0] := by
  unfold State.writeReg
  split
  · rfl
  · rename_i h
    have hn : r.toNat ≠ 0 := fun e => h (BitVec.eq_of_toNat_eq e)
    simp [hn]

/-! Memory words (R38, R39). -/

/-- A word access reaches memory exactly where its address is in the window and a multiple of 4 (R37). -/
theorem wordReaches_iff (c : Config) (a : Word) :
    wordReaches c a = true ↔ inWindow c a = true ∧ offset c a % 4 = 0 := by
  simp [wordReaches]

/-- The constraints that every configuration carries (R8). -/
theorem config_constraints (c : Config) :
    c.memBase.toNat % 4 = 0 ∧ c.memSize % 4 = 0 ∧ 0 < c.memSize ∧ c.memBase.toNat + c.memSize ≤ 2 ^ 32 ∧
      c.resetVector.toNat % 4 = 0 := by
  have h := c.ok
  simp only [Params.wf, Params.baseAligned, Params.sizeAligned, Params.sizePositive, Params.windowFits,
    Params.vectorAligned, Bool.and_eq_true, decide_eq_true_eq, beq_iff_eq] at h
  omega

/-- In the window, alignment relative to the base is alignment of the address itself (R37). -/
theorem wordReaches_iff_aligned (c : Config) (a : Word) :
    wordReaches c a = true ↔ inWindow c a = true ∧ a.toNat % 4 = 0 := by
  have hc := config_constraints c
  rw [wordReaches_iff]
  simp only [offset, inWindow, Bool.and_eq_true, decide_eq_true_eq]
  omega

theorem State.readWord_of_not_reaches (s : State) (a : Word) (h : wordReaches s.cfg a = false) :
    s.readWord a = 0#32 := by
  simp [State.readWord, h]

theorem State.writeWord_of_not_reaches (s : State) (a : Word) (v : Nat) (h : wordReaches s.cfg a = false) :
    s.writeWord a v = s := by
  simp [State.writeWord, h]

/-! Retire (R82). -/

/-- Without a pending transfer `pc` advances by 4 and nothing else changes. -/
theorem State.retire_of_quiet (s : State) (h : s.Quiet) : s.retire = { s with pc := s.pc + 4#32 } := by
  have : s.transferPending = false := by simp [State.transferPending, h.1, h.2]
  simp [State.retire, this]

/-- An instruction that writes one register: the write, and `pc + 4`. -/
theorem State.finish_of_quiet (s : State) (h : s.Quiet) (r : RegNum) (v : Word) :
    s.finish r v = .next { s.writeReg r v with pc := s.pc + 4#32 } := by
  rw [State.finish, State.retire_of_quiet _ (by simpa [State.Quiet] using h), State.writeReg_pc]

/-- After a transfer is set, Retire takes it unless its target is 0 and that means none (D13). -/
theorem State.retire_setTransfer (s : State) (t : Word) (h : s.Quiet) :
    (s.setTransfer t).retire =
      { s with pc := if s.cfg.zeroTargetIsNoTransfer = true ∧ t = 0#32 then s.pc + 4#32 else t } := by
  obtain ⟨cfg, gpr, hi, lo, pc, nextPc, pending, cr, ll, run, fault, mem, image⟩ := s
  obtain ⟨rfl, rfl⟩ : nextPc = 0#32 ∧ pending = false := h
  cases hz : cfg.zeroTargetIsNoTransfer <;> by_cases ht : t = 0#32 <;>
    simp [State.retire, State.transferPending, State.setTransfer, hz, ht]

/-! What an instruction and a step can do. -/

/-- The shapes of the state an instruction leaves: one register write and Retire; a register write, a transfer
and Retire; or a strict-mode fault. (`x[0] <- 0` stands for no register write.) -/
theorem exec_shape (i : Instr) (s : State) :
    (∃ r v, exec i s = .next (s.writeReg r v).retire) ∨
      (∃ r v target, exec i s = .next ((s.writeReg r v).setTransfer (jumpTarget s.pc target)).retire) ∨
      (s.cfg.strictMode = true ∧ ∃ f, exec i s = .next (s.takeFault f)) := by
  cases i with
  | lw rt rs imm =>
    simp only [exec, execLw, State.loadInto]
    split
    · split
      · exact .inr (.inr ⟨‹_›, _, rfl⟩)
      · exact .inl ⟨0#5, 0#32, rfl⟩
    · split
      · rename_i h
        exact .inr (.inr ⟨by simp_all, _, rfl⟩)
      · exact .inl ⟨_, _, rfl⟩
  | j target => exact .inr (.inl ⟨0#5, 0#32, target, rfl⟩)
  | jal target => exact .inr (.inl ⟨_, _, target, rfl⟩)
  | _ => exact .inl ⟨_, _, rfl⟩

/-- The shapes of the state a step leaves. -/
theorem step_shape (s : State) :
    (s.run = .halted ∧ step s = .next s) ∨
      (s.run = .running ∧ s.cfg.strictMode = true ∧ ∃ f, step s = .next (s.takeFault f)) ∨
      (s.run = .running ∧ step s = .next s.retire) ∨
      (s.run = .running ∧ ∃ i, decode (s.readWord s.pc) = .recognized i ∧ step s = exec i s) := by
  unfold step
  split
  · exact .inl ⟨‹_›, rfl⟩
  · rename_i hrun
    unfold State.fetch
    split
    · rename_i f hf
      split at hf
      · rename_i hc
        exact .inr (.inl ⟨hrun, by simp_all, f, rfl⟩)
      · cases hf
    · rename_i w hw
      split at hw
      · cases hw
      · cases hw
        unfold runWord
        split
        · rename_i i hi
          exact .inr (.inr (.inr ⟨hrun, i, hi, rfl⟩))
        · unfold execUnrecognized
          split
          · exact .inr (.inl ⟨hrun, ‹_›, _, rfl⟩)
          · exact .inr (.inr (.inl ⟨hrun, rfl⟩))

/-- A run of `k + 1` steps is one step and then `k`. -/
theorem run_succ (M : Host.Core) (k : Nat) (s : M.State) :
    M.run (k + 1) s =
      match M.step s with
      | .next t => M.run k t
      | .fault r => .fault r
      | .refused r => .refused r := rfl

theorem core_run_succ (k : Nat) {s t : State} (h : step s = .next t) :
    Host.Core.run core (k + 1) s = Host.Core.run core k t := by
  have hstep : core.step s = .next t := h
  exact (run_succ core k s).trans (by rw [hstep])

end Sys2Proof.Machine
end

