-- ==== Sys2Proof/Laws/Encoding.lean ====
section
/-! SUPPORT. The fields of an assembled word (30_encoding.md R55, R56): each format puts its operands where the
decoder looks for them; and a word is made of its fields. -/

namespace Sys2Proof

section RFormat

variable (funct : BitVec 6) (rd rs rt : RegNum) (shamt : BitVec 5)

theorem fieldOp_encodeR : fieldOp (encodeR funct rd rs rt shamt) = opRFamily := by
  apply BitVec.eq_of_getLsbD_eq
  intro i hi
  simp only [fieldOp, encodeR, BitVec.getLsbD_extractLsb', BitVec.getLsbD_append]
  interval_cases i <;> simp

theorem fieldRs_encodeR : fieldRs (encodeR funct rd rs rt shamt) = rs := by
  apply BitVec.eq_of_getLsbD_eq
  intro i hi
  simp only [fieldRs, encodeR, BitVec.getLsbD_extractLsb', BitVec.getLsbD_append]
  interval_cases i <;> simp

theorem fieldRt_encodeR : fieldRt (encodeR funct rd rs rt shamt) = rt := by
  apply BitVec.eq_of_getLsbD_eq
  intro i hi
  simp only [fieldRt, encodeR, BitVec.getLsbD_extractLsb', BitVec.getLsbD_append]
  interval_cases i <;> simp

theorem fieldRd_encodeR : fieldRd (encodeR funct rd rs rt shamt) = rd := by
  apply BitVec.eq_of_getLsbD_eq
  intro i hi
  simp only [fieldRd, encodeR, BitVec.getLsbD_extractLsb', BitVec.getLsbD_append]
  interval_cases i <;> simp

theorem fieldShamt_encodeR : fieldShamt (encodeR funct rd rs rt shamt) = shamt := by
  apply BitVec.eq_of_getLsbD_eq
  intro i hi
  simp only [fieldShamt, encodeR, BitVec.getLsbD_extractLsb', BitVec.getLsbD_append]
  interval_cases i <;> simp

theorem fieldFunct_encodeR : fieldFunct (encodeR funct rd rs rt shamt) = funct := by
  apply BitVec.eq_of_getLsbD_eq
  intro i hi
  simp only [fieldFunct, encodeR, BitVec.getLsbD_extractLsb', BitVec.getLsbD_append]
  interval_cases i <;> simp

end RFormat

section IFormat

variable (op : BitVec 6) (rt rs : RegNum) (imm : BitVec 16)

theorem fieldOp_encodeI : fieldOp (encodeI op rt rs imm) = op := by
  apply BitVec.eq_of_getLsbD_eq
  intro i hi
  simp only [fieldOp, encodeI, BitVec.getLsbD_extractLsb', BitVec.getLsbD_append]
  interval_cases i <;> simp

theorem fieldRs_encodeI : fieldRs (encodeI op rt rs imm) = rs := by
  apply BitVec.eq_of_getLsbD_eq
  intro i hi
  simp only [fieldRs, encodeI, BitVec.getLsbD_extractLsb', BitVec.getLsbD_append]
  interval_cases i <;> simp

theorem fieldRt_encodeI : fieldRt (encodeI op rt rs imm) = rt := by
  apply BitVec.eq_of_getLsbD_eq
  intro i hi
  simp only [fieldRt, encodeI, BitVec.getLsbD_extractLsb', BitVec.getLsbD_append]
  interval_cases i <;> simp

theorem fieldImm_encodeI : fieldImm (encodeI op rt rs imm) = imm := by
  apply BitVec.eq_of_getLsbD_eq
  intro i hi
  simp only [fieldImm, encodeI, BitVec.getLsbD_extractLsb', BitVec.getLsbD_append]
  interval_cases i <;> simp

end IFormat

theorem fieldOp_encodeJ (op : BitVec 6) (target : BitVec 26) : fieldOp (encodeJ op target) = op := by
  apply BitVec.eq_of_getLsbD_eq
  intro i hi
  simp only [fieldOp, encodeJ, BitVec.getLsbD_extractLsb', BitVec.getLsbD_append]
  interval_cases i <;> simp

theorem fieldTarget_encodeJ (op : BitVec 6) (target : BitVec 26) : fieldTarget (encodeJ op target) = target := by
  apply BitVec.eq_of_getLsbD_eq
  intro i hi
  simp only [fieldTarget, encodeJ, BitVec.getLsbD_extractLsb', BitVec.getLsbD_append]
  interval_cases i <;> simp

/-- A word is its R-format fields put together. -/
theorem word_eq_encodeR (w : Word) (h : fieldOp w = opRFamily) :
    w = encodeR (fieldFunct w) (fieldRd w) (fieldRs w) (fieldRt w) (fieldShamt w) := by
  apply BitVec.eq_of_getLsbD_eq
  intro i hi
  simp only [encodeR, ← h, fieldOp, fieldFunct, fieldRd, fieldRs, fieldRt, fieldShamt,
    BitVec.getLsbD_append, BitVec.getLsbD_extractLsb']
  interval_cases i <;> simp

/-- A word is its I-format fields put together. -/
theorem word_eq_encodeI (w : Word) : w = encodeI (fieldOp w) (fieldRt w) (fieldRs w) (fieldImm w) := by
  apply BitVec.eq_of_getLsbD_eq
  intro i hi
  simp only [encodeI, fieldOp, fieldRs, fieldRt, fieldImm, BitVec.getLsbD_append, BitVec.getLsbD_extractLsb']
  interval_cases i <;> simp

/-- A word is its J-format fields put together. -/
theorem word_eq_encodeJ (w : Word) : w = encodeJ (fieldOp w) (fieldTarget w) := by
  apply BitVec.eq_of_getLsbD_eq
  intro i hi
  simp only [encodeJ, fieldOp, fieldTarget, BitVec.getLsbD_append, BitVec.getLsbD_extractLsb']
  interval_cases i <;> simp

end Sys2Proof
end

