-- ==== Sys2Proof/Laws/PerInstr.lean ====
section
/-! SUPPORT. Families of statements made per instruction. `TableMatch`: the encoder puts each instruction into
its row of spec/opcode_table.json, its word under the row's mask being the row's match. -/

namespace Sys2Proof.Laws.TableMatch

/-- The mask of the instruction's row of spec/opcode_table.json. -/
def mask : Instr → Word
  | .add _ _ _ _ => 0xFC00003F#32
  | .and _ _ _ _ => 0xFC00003F#32
  | .or _ _ _ _ => 0xFC00003F#32
  | .slt _ _ _ _ => 0xFC00003F#32
  | .addi _ _ _ => 0xFC000000#32
  | .andi _ _ _ => 0xFC000000#32
  | .ori _ _ _ => 0xFC000000#32
  | .lw _ _ _ => 0xFC000000#32
  | .j _ => 0xFC000000#32
  | .jal _ => 0xFC000000#32

/-- The match of the instruction's row of spec/opcode_table.json. -/
def pattern : Instr → Word
  | .add _ _ _ _ => 0x00000020#32
  | .and _ _ _ _ => 0x00000024#32
  | .or _ _ _ _ => 0x00000025#32
  | .slt _ _ _ _ => 0x0000002A#32
  | .addi _ _ _ => 0x20000000#32
  | .andi _ _ _ => 0x30000000#32
  | .ori _ _ _ => 0x34000000#32
  | .lw _ _ _ => 0x8C000000#32
  | .j _ => 0x08000000#32
  | .jal _ => 0x0C000000#32

/-- The instruction's word lies in its row of the opcode table. -/
def Statement (i : Instr) : Prop := encode i &&& mask i = pattern i

/-- The mask of an R-family row keeps the function of a word of the R format. -/
theorem encodeR_and_mask (funct : BitVec 6) (rd rs rt : RegNum) (shamt : BitVec 5) :
    encodeR funct rd rs rt shamt &&& 0xFC00003F#32 = funct.zeroExtend 32 := by
  apply BitVec.eq_of_getLsbD_eq
  intro i hi
  simp only [encodeR, opRFamily, BitVec.getLsbD_and, BitVec.getLsbD_append, BitVec.truncate_eq_setWidth,
    BitVec.getLsbD_setWidth]
  interval_cases i <;> simp

/-- The mask of an I-family row keeps the opcode of a word of the I format. -/
theorem encodeI_and_mask (op : BitVec 6) (rt rs : RegNum) (imm : BitVec 16) :
    encodeI op rt rs imm &&& 0xFC000000#32 = op ++ 0#26 := by
  apply BitVec.eq_of_getLsbD_eq
  intro i hi
  simp only [encodeI, BitVec.getLsbD_and, BitVec.getLsbD_append]
  interval_cases i <;> simp

/-- The mask of a J-family row keeps the opcode of a word of the J format. -/
theorem encodeJ_and_mask (op : BitVec 6) (target : BitVec 26) :
    encodeJ op target &&& 0xFC000000#32 = op ++ 0#26 := by
  apply BitVec.eq_of_getLsbD_eq
  intro i hi
  simp only [encodeJ, BitVec.getLsbD_and, BitVec.getLsbD_append]
  interval_cases i <;> simp

theorem add (rd rs rt : RegNum) (shamt : BitVec 5) : Statement (.add rd rs rt shamt) :=
  encodeR_and_mask ..

theorem and (rd rs rt : RegNum) (shamt : BitVec 5) : Statement (.and rd rs rt shamt) :=
  encodeR_and_mask ..

theorem or (rd rs rt : RegNum) (shamt : BitVec 5) : Statement (.or rd rs rt shamt) :=
  encodeR_and_mask ..

theorem slt (rd rs rt : RegNum) (shamt : BitVec 5) : Statement (.slt rd rs rt shamt) :=
  encodeR_and_mask ..

theorem addi (rt rs : RegNum) (imm : BitVec 16) : Statement (.addi rt rs imm) :=
  encodeI_and_mask ..

theorem andi (rt rs : RegNum) (imm : BitVec 16) : Statement (.andi rt rs imm) :=
  encodeI_and_mask ..

theorem ori (rt rs : RegNum) (imm : BitVec 16) : Statement (.ori rt rs imm) :=
  encodeI_and_mask ..

theorem lw (rt rs : RegNum) (imm : BitVec 16) : Statement (.lw rt rs imm) :=
  encodeI_and_mask ..

theorem j (target : BitVec 26) : Statement (.j target) :=
  encodeJ_and_mask ..

theorem jal (target : BitVec 26) : Statement (.jal target) :=
  encodeJ_and_mask ..

end Sys2Proof.Laws.TableMatch
end

