-- ==== Sys2Proof/Certificates/Slice0/Obligations.lean ====
section
/-! DEFINITION. The statements for the provers. Each one says which rules of spec/ it formalises, and where a
clause rests on a decision the spec marks as its own (D<n>), on its general knowledge (G<n>) or on a log entry
of this model. -/

namespace Sys2Proof.Claims

open Sys2Proof.Machine

/-! Words used by several statements. -/

/-- Every general register reads as before. -/
abbrev RegsKept (s t : State) : Prop := ∀ q : RegNum, t.readReg q = s.readReg q

/-- Register `r` reads as `v` (if it is not register 0), and every other register as before. -/
abbrev RegWritten (s t : State) (r : RegNum) (v : Word) : Prop :=
  ∀ q : RegNum, t.readReg q = if q = r ∧ q ≠ 0#5 then v else s.readReg q

/-- Every byte of memory reads as before. -/
abbrev BytesKept (s t : State) : Prop := ∀ o : Nat, t.byteAt o = s.byteAt o

/-- What no instruction writes: the configuration, `hi`, `lo`, `cr`, `ll`, memory and the image. -/
abbrev InertKept (s t : State) : Prop :=
  t.cfg = s.cfg ∧ t.hi = s.hi ∧ t.lo = s.lo ∧ t.cr = s.cr ∧ t.ll = s.ll ∧ t.image = s.image ∧ BytesKept s t

/-- Everything but the general registers and `pc` is as before. -/
abbrev RestKept (s t : State) : Prop :=
  InertKept s t ∧ t.nextPc = s.nextPc ∧ t.pending = s.pending ∧ t.run = s.run ∧ t.fault = s.fault

/-- The register an instruction may write (R21). -/
def destination : Instr → Option RegNum
  | .add rd _ _ _ => some rd
  | .and rd _ _ _ => some rd
  | .or rd _ _ _ => some rd
  | .slt rd _ _ _ => some rd
  | .addi rt _ _ => some rt
  | .andi rt _ _ => some rt
  | .ori rt _ _ => some rt
  | .lw rt _ _ => some rt
  | .j _ => none
  | .jal _ => some 31#5

/-- The registers an instruction reads (R21). -/
def sources : Instr → List RegNum
  | .add _ rs rt _ => [rs, rt]
  | .and _ rs rt _ => [rs, rt]
  | .or _ rs rt _ => [rs, rt]
  | .slt _ rs rt _ => [rs, rt]
  | .addi _ rs _ => [rs]
  | .andi _ rs _ => [rs]
  | .ori _ rs _ => [rs]
  | .lw _ rs _ => [rs]
  | .j _ => []
  | .jal _ => []

/-- The instruction is LW. -/
def isLoad : Instr → Bool
  | .lw _ _ _ => true
  | _ => false

/-- The next state of an outcome, changed by `f`. -/
def mapNext (f : State → State) : Host.Outcome State Fault Refusal → Host.Outcome State Fault Refusal
  | .next t => .next (f t)
  | .fault r => .fault r
  | .refused r => .refused r

/-- The jump target as the bits of R63: `pc[31:28] ++ target ++ 0b00`. -/
abbrev targetBits (pc : Word) (target : BitVec 26) : Word := pc.extractLsb' 28 4 ++ target ++ 0#2

/-- `pc` after a J or JAL at `pc`: the target, or `pc + 4` where a zero target means no transfer (D13). -/
abbrev pcAfterJump (c : Config) (pc : Word) (target : BitVec 26) : Word :=
  if c.zeroTargetIsNoTransfer = true ∧ targetBits pc target = 0#32 then pc + 4#32 else targetBits pc target

/-- The value of a logical immediate in each setting of `LOGICAL_IMM_EXT` (R63). -/
def extendedImm : ImmExt → BitVec 16 → Word
  | .sign, imm => BitVec.ofInt 32 imm.toInt
  | .zero, imm => BitVec.ofNat 32 imm.toNat

/-- `u(a)` is in the window (R36). -/
abbrev InWindow (c : Config) (a : Word) : Prop :=
  c.memBase.toNat ≤ a.toNat ∧ a.toNat < c.memBase.toNat + c.memSize

/-- The four bytes of memory from a mapped offset on, big-endian (R38). -/
abbrev bigEndianAt (s : State) (o : Nat) : Word :=
  s.byteAt o ++ s.byteAt (o + 1) ++ s.byteAt (o + 2) ++ s.byteAt (o + 3)

/-- The state a strict-mode fault leaves (R97). -/
def faulted (s : State) (f : StrictFault) : State := { s with fault := some f, run := .halted }

/-- The registers and control state of R104, for a configuration. -/
abbrev ResetValues (c : Config) (t : State) : Prop :=
  t.cfg = c ∧ t.gpr = Vector.replicate 32 0#32 ∧ t.pc = c.resetVector ∧ t.nextPc = 0#32 ∧ t.pending = false ∧
    t.hi = 0#32 ∧ t.lo = 0#32 ∧ t.cr = Vector.replicate 32 0#32 ∧ t.ll = false ∧ t.run = .halted ∧ t.fault = none

/-- How many bytes an image load copies: `min(max(len - HEADER_SIZE, 0), MEM_SIZE)` (R47). -/
abbrev copiedLength (c : Config) (bytes : List Byte) : Nat := min (bytes.length - c.headerSize) c.memSize

/-- The memory of `t` is that of `s` after the image copy (R47, R108). -/
abbrev ImageCopied (s t : State) (bytes : List Byte) : Prop :=
  ∀ o : Nat, t.byteAt o =
    if o < copiedLength s.cfg bytes then bytes.getD (s.cfg.headerSize + o) 0#8 else s.byteAt o

/-- The state with `hi`, `lo`, `cr` and `ll` replaced. -/
def withInert (hi lo : Word) (cr : Vector Word 32) (ll : Bool) (s : State) : State :=
  { s with hi := hi, lo := lo, cr := cr, ll := ll }

/-- The state with `cr` and `ll` blanked. -/
def blankHidden (s : State) : State := { s with cr := Vector.replicate 32 0#32, ll := false }

/-- The same state in the configuration without strict mode. -/
def silent (s : State) : State :=
  { s with cfg := { toParams := { s.cfg.toParams with strictMode := false }, ok := s.cfg.ok } }

end Sys2Proof.Claims

open Sys2Proof Sys2Proof.Machine Sys2Proof.Claims

/-! ## What each instruction does

The places of the register fields and the numbers of the instructions (D6, D7, G1 to G5; log 6) reach these
statements only through the constructor. `s.Quiet` (no transfer pending) is the premise that the invariant of
`StepKeepsInvariant` supplies in every state between two steps. -/

/-- R71: ADD, for every operand, `rd = 0` and `rd = rs` among them; `u(a) + u(b)` modulo `2^32`, no trap and no
record of an overflow (the wrap is the spec's own decision D5). -/
def Obligations.AddWritesWrappedSum : Prop :=
  ∀ (s : State) (rd rs rt : RegNum) (shamt : BitVec 5), s.Quiet →
    ∃ t, exec (.add rd rs rt shamt) s = .next t ∧
      RegWritten s t rd (BitVec.ofNat 32 ((s.readReg rs).toNat + (s.readReg rt).toNat)) ∧
      t.pc = s.pc + 4#32 ∧ RestKept s t

/-- R72: AND. -/
def Obligations.AndWritesBitwiseAnd : Prop :=
  ∀ (s : State) (rd rs rt : RegNum) (shamt : BitVec 5), s.Quiet →
    ∃ t, exec (.and rd rs rt shamt) s = .next t ∧
      RegWritten s t rd (s.readReg rs &&& s.readReg rt) ∧ t.pc = s.pc + 4#32 ∧ RestKept s t

/-- R73: OR. -/
def Obligations.OrWritesBitwiseOr : Prop :=
  ∀ (s : State) (rd rs rt : RegNum) (shamt : BitVec 5), s.Quiet →
    ∃ t, exec (.or rd rs rt shamt) s = .next t ∧
      RegWritten s t rd (s.readReg rs ||| s.readReg rt) ∧ t.pc = s.pc + 4#32 ∧ RestKept s t

/-- R74: SLT compares the two patterns as two's-complement numbers (D5, C5). -/
def Obligations.SltWritesSignedComparison : Prop :=
  ∀ (s : State) (rd rs rt : RegNum) (shamt : BitVec 5), s.Quiet →
    ∃ t, exec (.slt rd rs rt shamt) s = .next t ∧
      RegWritten s t rd (if (s.readReg rs).toInt < (s.readReg rt).toInt then 1#32 else 0#32) ∧
      t.pc = s.pc + 4#32 ∧ RestKept s t

/-- R75: ADDI, the sum of `s(x[rs])` and the signed immediate modulo `2^32` (wrap and no trap: D5; destination
`rt`: D6). -/
def Obligations.AddiWritesWrappedSum : Prop :=
  ∀ (s : State) (rt rs : RegNum) (imm : BitVec 16), s.Quiet →
    ∃ t, exec (.addi rt rs imm) s = .next t ∧
      RegWritten s t rt (BitVec.ofInt 32 ((s.readReg rs).toInt + imm.toInt)) ∧
      t.pc = s.pc + 4#32 ∧ RestKept s t

/-- R76: ANDI, in both settings of `LOGICAL_IMM_EXT` (D8; destination `rt`: D6). -/
def Obligations.AndiWritesAndWithExtendedImmediate : Prop :=
  ∀ (s : State) (rt rs : RegNum) (imm : BitVec 16), s.Quiet →
    ∃ t, exec (.andi rt rs imm) s = .next t ∧
      RegWritten s t rt (s.readReg rs &&& extendedImm s.cfg.logicalImmExt imm) ∧
      t.pc = s.pc + 4#32 ∧ RestKept s t

/-- R77: ORI, in both settings of `LOGICAL_IMM_EXT` (D8; destination `rt`: D6). -/
def Obligations.OriWritesOrWithExtendedImmediate : Prop :=
  ∀ (s : State) (rt rs : RegNum) (imm : BitVec 16), s.Quiet →
    ∃ t, exec (.ori rt rs imm) s = .next t ∧
      RegWritten s t rt (s.readReg rs ||| extendedImm s.cfg.logicalImmExt imm) ∧
      t.pc = s.pc + 4#32 ∧ RestKept s t

/-- R78: LW without strict mode, at every effective address (wrap: D12): outside the window no register is
written, in the window and misaligned `rt` gets 0 (D10), else the big-endian word. -/
def Obligations.LwLoadsByWindowAndAlignment : Prop :=
  ∀ (s : State) (rt rs : RegNum) (imm : BitVec 16), s.Quiet → s.cfg.strictMode = false →
    ∃ t, exec (.lw rt rs imm) s = .next t ∧ t.pc = s.pc + 4#32 ∧ RestKept s t ∧
      (let ea := BitVec.ofInt 32 ((s.readReg rs).toInt + imm.toInt)
       if ¬ InWindow s.cfg ea then RegsKept s t
       else if ea.toNat % 4 ≠ 0 then RegWritten s t rt 0#32
       else RegWritten s t rt (bigEndianAt s (ea.toNat - s.cfg.memBase.toNat)))

/-- R78 and R96, R97 (the spec's own strict mode, D21): with strict mode LW takes the fault of code 3 outside
the window and of code 4 where misaligned, and otherwise loads as without it. -/
def Obligations.StrictLwFaultsOrLoads : Prop :=
  ∀ (s : State) (rt rs : RegNum) (imm : BitVec 16), s.Quiet → s.cfg.strictMode = true →
    (let ea := BitVec.ofInt 32 ((s.readReg rs).toInt + imm.toInt)
     if ¬ InWindow s.cfg ea then exec (.lw rt rs imm) s = .next (faulted s (.loadOutOfRange s.pc ea))
     else if ea.toNat % 4 ≠ 0 then exec (.lw rt rs imm) s = .next (faulted s (.loadMisaligned s.pc ea))
     else ∃ t, exec (.lw rt rs imm) s = .next t ∧ t.pc = s.pc + 4#32 ∧ RestKept s t ∧
        RegWritten s t rt (bigEndianAt s (ea.toNat - s.cfg.memBase.toNat)))

/-- R80, R82: J, for every target, a zero target (D13) among them. -/
def Obligations.JTransfersToTarget : Prop :=
  ∀ (s : State) (target : BitVec 26), s.Quiet →
    ∃ t, exec (.j target) s = .next t ∧ t.pc = pcAfterJump s.cfg s.pc target ∧ RegsKept s t ∧ RestKept s t

/-- R81, R22, R82: JAL links `pc + 8` (wrap: D12) and transfers as J, the link written whether or not the
transfer is taken. -/
def Obligations.JalLinksAndTransfers : Prop :=
  ∀ (s : State) (target : BitVec 26), s.Quiet →
    ∃ t, exec (.jal target) s = .next t ∧ t.pc = pcAfterJump s.cfg s.pc target ∧
      RegWritten s t 31#5 (s.pc + 8#32) ∧ RestKept s t

/-- R86: a word that Decode does not recognize changes nothing but `pc`, which advances by 4. -/
def Obligations.UnrecognizedIsSilentNoOp : Prop :=
  ∀ s : State, s.Quiet → s.run = .running → s.cfg.strictMode = false →
    decode (s.readWord s.pc) = .unrecognized →
    ∃ t, step s = .next t ∧ t.pc = s.pc + 4#32 ∧ RegsKept s t ∧ RestKept s t

/-! ## What instructions leave alone -/

/-- The frame of all ten instructions, ADD, AND, OR, SLT, ADDI, ANDI, ORI, LW, J and JAL, in every
configuration: only the destination register may change (R21), no special register, no byte of memory (R40) and
no image; `run` and `fault` only by LW in strict mode (R97); and no transfer stays pending (R26). -/
def Obligations.InstructionFrame : Prop :=
  ∀ (i : Instr) (s t : State), exec i s = .next t →
    (∀ q : RegNum, destination i ≠ some q → t.readReg q = s.readReg q) ∧ InertKept s t ∧
      (isLoad i = false ∨ s.cfg.strictMode = false → t.run = s.run ∧ t.fault = s.fault) ∧
      (s.Quiet → t.Quiet)

/-- R21, R64: a register that an instruction neither reads nor writes has no part in what it does: writing
that register before it is the same as writing it after. -/
def Obligations.UnreadRegistersDoNotMatter : Prop :=
  ∀ (i : Instr) (s : State) (r : RegNum) (v : Word), r ∉ sources i → destination i ≠ some r →
    exec i (s.writeReg r v) = mapNext (fun t => t.writeReg r v) (exec i s)

/-- R88: no step reads or writes `hi`, `lo`, `cr` or `ll`: with other values in them it does the same and
leaves them as they were. -/
def Obligations.InertRegistersHaveNoPartInAStep : Prop :=
  ∀ (s : State) (hi lo : Word) (cr : Vector Word 32) (ll : Bool),
    step (withInert hi lo cr ll s) = mapNext (withInert hi lo cr ll) (step s) ∧
      ∀ t, step s = .next t → t.hi = s.hi ∧ t.lo = s.lo ∧ t.cr = s.cr ∧ t.ll = s.ll

/-- R82: Retire in every state and both settings of `ZERO_TARGET_IS_NO_TRANSFER` (D13; wrap: D12; the pending
bit is the model's field, log 3): a pending transfer is taken and cleared, else `pc` advances by 4; nothing
else changes. -/
def Obligations.RetireTakesPendingTransferOrAdvances : Prop :=
  ∀ s : State,
    (s.cfg.zeroTargetIsNoTransfer = true →
      s.retire = if s.nextPc ≠ 0#32 then { s with pc := s.nextPc, nextPc := 0#32 }
        else { s with pc := s.pc + 4#32 }) ∧
    (s.cfg.zeroTargetIsNoTransfer = false →
      s.retire = if s.pending = true then { s with pc := s.nextPc, nextPc := 0#32, pending := false }
        else { s with pc := s.pc + 4#32 })

/-- R20: register 0 reads as zero and a write to it changes nothing; a write to another register is read back
and touches no other; no instruction changes the stored `GPR[0]`; `dumpRegisters()` reports 0 for it. -/
def Obligations.RegisterZeroReadsZeroAndDiscardsWrites : Prop :=
  ∀ (s : State) (r q : RegNum) (v : Word),
    s.readReg 0#5 = 0#32 ∧ s.writeReg 0#5 v = s ∧
      (s.writeReg r v).readReg q = (if q = r ∧ q ≠ 0#5 then v else s.readReg q) ∧
      (∀ (i : Instr) (t : State), exec i s = .next t → t.gpr[0] = s.gpr[0]) ∧
      s.dumpRegisters.gpr[0] = 0#32

/-! ## Encoding -/

/-- R55, R56, R58: decoding the word of any instruction gives it back, every operand at every value (the
numbers and places: D6, D7, log 6). -/
def Obligations.DecodeOfEncodedInstruction : Prop := ∀ i : Instr, decode (encode i) = .recognized i

/-- R58, R62: a recognized word is the word of the instruction it decodes to: no bit is lost, and no two words
decode alike (`shamt` kept as an operand: log 7). -/
def Obligations.EncodeOfDecodedWord : Prop :=
  ∀ (w : Word) (i : Instr), decode w = .recognized i → encode i = w

/-- R58 to R61, R65, R86: Unrecognized is exactly the complement of the table (numbers: D7, log 6). -/
def Obligations.UnrecognizedIsTheComplementOfTheTable : Prop :=
  ∀ w : Word, decode w = .unrecognized ↔
    (w.extractLsb' 26 6 = 0#6 ∧ w.extractLsb' 0 6 ∉ [0x20#6, 0x24#6, 0x25#6, 0x2A#6]) ∨
      w.extractLsb' 26 6 ∉ [0x00#6, 0x02#6, 0x03#6, 0x08#6, 0x0C#6, 0x0D#6, 0x23#6]

/-- Words written out in 95_test_vectors.md, at least one of every family, decode to the instructions that file
gives for them (numbers: D7, log 6). -/
def Obligations.SpecWordsDecode : Prop :=
  decode 0x00221820#32 = .recognized (.add 3#5 1#5 2#5 0#5) ∧
    decode 0x00221FE0#32 = .recognized (.add 3#5 1#5 2#5 31#5) ∧
    decode 0x0022182A#32 = .recognized (.slt 3#5 1#5 2#5 0#5) ∧
    decode 0x2022FFFF#32 = .recognized (.addi 2#5 1#5 0xFFFF#16) ∧
    decode 0x34028000#32 = .recognized (.ori 2#5 0#5 0x8000#16) ∧
    decode 0x8FE20020#32 = .recognized (.lw 2#5 31#5 0x0020#16) ∧
    decode 0x0BFFFFFF#32 = .recognized (.j 0x3FFFFFF#26) ∧
    decode 0x0C000002#32 = .recognized (.jal 2#26) ∧
    decode 0xAC220000#32 = .unrecognized ∧ decode 0x00000000#32 = .unrecognized

/-- R62 (D26): of two R-family words that differ only in `shamt`, if one is recognized so is the other, and
the two do the same in every state. -/
def Obligations.ShamtIsIgnored : Prop :=
  ∀ (w w' : Word) (i : Instr), w.extractLsb' 26 6 = 0#6 → w.extractLsb' 11 21 = w'.extractLsb' 11 21 →
    w.extractLsb' 0 6 = w'.extractLsb' 0 6 → decode w = .recognized i →
    ∃ i', decode w' = .recognized i' ∧ ∀ s, exec i' s = exec i s

/-- R63, R83: the values of the immediates and the jump target; the target is a multiple of 4; the two settings
of `LOGICAL_IMM_EXT` (D8) agree exactly where bit 15 of the immediate is clear (R76). -/
def Obligations.ImmediatesAndTargets : Prop :=
  (∀ imm : BitVec 16, (immSigned imm).toInt = imm.toInt) ∧
    (∀ (c : Config) (imm : BitVec 16), c.logicalImmExt = .sign → (immLogical c imm).toInt = imm.toInt) ∧
    (∀ (c : Config) (imm : BitVec 16), c.logicalImmExt = .zero → (immLogical c imm).toNat = imm.toNat) ∧
    (∀ (c d : Config) (imm : BitVec 16), c.logicalImmExt = .sign → d.logicalImmExt = .zero →
      (immLogical c imm = immLogical d imm ↔ imm.toNat < 2 ^ 15)) ∧
    (∀ (pc : Word) (target : BitVec 26),
      jumpTarget pc target = targetBits pc target ∧ (jumpTarget pc target).toNat % 4 = 0)

/-! ## The step -/

/-- R57: the step in the mode without strict faults: nothing while Halted; while Running the word at `pc` is
decoded and a recognized instruction is executed and retired (`exec`), an unrecognized word only retired; and a
`pc` outside the window yields the zero word, which is unrecognized. -/
def Obligations.StepRunsTheDecodedInstruction : Prop :=
  ∀ s : State,
    (s.run = .halted → step s = .next s) ∧
    (∀ i : Instr, s.run = .running → s.cfg.strictMode = false → decode (s.readWord s.pc) = .recognized i →
      step s = exec i s) ∧
    (s.run = .running → s.cfg.strictMode = false → decode (s.readWord s.pc) = .unrecognized →
      step s = .next s.retire) ∧
    (¬ InWindow s.cfg s.pc → s.readWord s.pc = 0#32 ∧ decode (s.readWord s.pc) = .unrecognized)

/-- R84: after a J or JAL whose transfer is taken the very next step fetches from the target and runs that word,
not the one after the jump. A transfer is taken unless its target is 0 and `ZERO_TARGET_IS_NO_TRANSFER` is true
(R82; the spec's own decision D13, its pending bit log 3); so a jump to address 0 is among them where the parameter
is false, and the form left out is stated by `JTransfersToTarget` and `JalLinksAndTransfers`. (In strict mode a
target outside the window is the fetch fault of `StrictModeChecksInOrder`.) -/
def Obligations.JumpTakesEffectOnTheNextStep : Prop :=
  ∀ (s : State) (target : BitVec 26), s.Quiet → s.run = .running →
    (decode (s.readWord s.pc) = .recognized (.j target) ∨ decode (s.readWord s.pc) = .recognized (.jal target)) →
    ¬ (s.cfg.zeroTargetIsNoTransfer = true ∧ targetBits s.pc target = 0#32) →
    ∃ t, step s = .next t ∧ t.pc = targetBits s.pc target ∧ t.run = .running ∧
      (s.cfg.strictMode = false ∨ InWindow s.cfg (targetBits s.pc target) →
        t.fetch = .ok (s.readWord (targetBits s.pc target)) ∧
          step t = runWord (s.readWord (targetBits s.pc target)) t)

/-- R89, R93, R87: without strict mode every step, in every state, answers a next state that records no fault,
leaves `run` alone and writes no memory; and a `pc` outside the window or misaligned only advances by 4. -/
def Obligations.SilentModeNeverStops : Prop :=
  ∀ s : State, s.cfg.strictMode = false →
    ∃ t, step s = .next t ∧ t.run = s.run ∧ t.fault = s.fault ∧ BytesKept s t ∧
      (s.Quiet → s.run = .running → ¬ InWindow s.cfg s.pc ∨ s.pc.toNat % 4 ≠ 0 →
        t.pc = s.pc + 4#32 ∧ RegsKept s t ∧ RestKept s t)

/-- R83: from a `pc` outside the window the core walks forward four bytes a step as long as `pc` stays outside,
wrapping at `2^32` (D12), and changes nothing else. -/
def Obligations.CoreWalksForwardOutsideTheWindow : Prop :=
  ∀ (k : Nat) (s : State), s.Quiet → s.run = .running → s.cfg.strictMode = false →
    (∀ j, j < k → ¬ InWindow s.cfg (s.pc + BitVec.ofNat 32 (4 * j))) →
    Host.Core.run core k s = .next { s with pc := s.pc + BitVec.ofNat 32 (4 * k) }

/-- R111: from a J to its own address on, every step leaves every piece of state as it was. A J at address 0 is
left out where a zero target means no transfer (D13), since it then advances (log 12). -/
def Obligations.SelfLoopIsAFixedPoint : Prop :=
  ∀ (k : Nat) (s : State), s.Quiet → s.run = .running → s.atSelfLoop = true →
    (s.cfg.zeroTargetIsNoTransfer = true → s.pc ≠ 0#32) →
    Host.Core.run core k s = .next s

/-! ## Invariants -/

/-- R20, R24, R26, R27, R29, R30, R33, R34, R97, R106: what holds between two steps holds after the next one,
from every state, in every configuration. -/
def Obligations.StepKeepsInvariant : Prop :=
  ∀ s t : State, s.Inv → step s = .next t → t.Inv

/-- The same invariant under every operation of the block's interface (R10), the host's among them. -/
def Obligations.OperationsKeepInvariant : Prop :=
  ∀ (op : BlockOp) (s t : State) (r : Reply), s.Inv → perform op s = some (r, t) → t.Inv

/-- R105: the invariant holds at construction in every configuration, so at `State.reset` (its configuration is
log 2, its pending bit log 3). -/
def Obligations.ConstructionMeetsInvariant : Prop :=
  (∀ c : Config, (State.construct c).Inv) ∧ State.reset.Inv

/-- The model's own field `cfg` (log 1) is written by no operation: the parameters are fixed for an instance
(R67). -/
def Obligations.ConfigurationNeverChanges : Prop :=
  ∀ (op : BlockOp) (s t : State) (r : Reply), perform op s = some (r, t) → t.cfg = s.cfg

/-- R29, R30: no program and no host operation can observe `cr` or `ll`: with other values in them every
operation gives the same reply and a state that is the same but for them. -/
def Obligations.HiddenRegistersAreUnobservable : Prop :=
  ∀ (op : BlockOp) (s : State) (cr : Vector Word 32) (ll : Bool),
    (perform op { s with cr := cr, ll := ll }).map (fun p => (p.1, blankHidden p.2)) =
      (perform op s).map (fun p => (p.1, blankHidden p.2))

/-! ## Memory -/

/-- R38: `readWord` in and outside the window, and that it changes no state. -/
def Obligations.ReadWordAnswersBigEndianOrZero : Prop :=
  ∀ (s : State) (a : Word),
    perform (.readWord a) s =
      if InWindow s.cfg a ∧ (a.toNat - s.cfg.memBase.toNat) % 4 = 0 then
        some (.word (bigEndianAt s (a.toNat - s.cfg.memBase.toNat)), s)
      else some (.word 0#32, s)

/-- R39, R41 (misaligned write: D9): where a word write reaches memory its four bytes become those of
`v mod 2^32`, the most significant first, it reads back, every other byte is kept, and the state changes in
nothing but its memory; elsewhere nothing changes at all. -/
def Obligations.WriteWordStoresBigEndian : Prop :=
  ∀ (s : State) (a : Word) (v : Nat), Memory.wf s.mem = true →
    if InWindow s.cfg a ∧ a.toNat % 4 = 0 then
      (s.writeWord a v).readWord a = BitVec.ofNat 32 v ∧
        (∀ o, (s.writeWord a v).byteAt o =
          (let k := a.toNat - s.cfg.memBase.toNat
           if o = k then BitVec.ofNat 8 (v / 2 ^ 24)
           else if o = k + 1 then BitVec.ofNat 8 (v / 2 ^ 16)
           else if o = k + 2 then BitVec.ofNat 8 (v / 2 ^ 8)
           else if o = k + 3 then BitVec.ofNat 8 v
           else s.byteAt o)) ∧
        s.writeWord a v = { s with mem := (s.writeWord a v).mem }
    else s.writeWord a v = s

/-- R115: no step changes a byte of memory, and a word the host writes while Halted is what the next fetch
there reads. -/
def Obligations.HostWriteIsSeenByTheNextFetch : Prop :=
  (∀ s t : State, step s = .next t → BytesKept s t) ∧
    ∀ (s t : State) (a : Word) (v : Nat) (r : Reply), Memory.wf s.mem = true →
      perform (.writeWord a v) s = some (r, t) → InWindow s.cfg a → a.toNat % 4 = 0 → t.pc = a →
      t.fetch = .ok (BitVec.ofNat 32 v)

/-- R48 (refusal: D25; no wrap of `a + n - 1`, and `n = 0`: log 10): the `n` bytes in address order where every
address is in the window, else no bytes; no state changes. -/
def Obligations.DumpMemoryAnswersTheBytes : Prop :=
  ∀ (s : State) (a : Word) (n : Nat),
    ((∀ k, k < n → s.cfg.memBase.toNat ≤ a.toNat + k ∧ a.toNat + k < s.cfg.memBase.toNat + s.cfg.memSize) →
      ∃ l : List Byte, perform (.dumpMemory a n) s = some (.bytes l, s) ∧ l.length = n ∧
        ∀ k, k < n → l[k]? = some (s.byteAt (a.toNat - s.cfg.memBase.toNat + k))) ∧
    (¬ (∀ k, k < n → s.cfg.memBase.toNat ≤ a.toNat + k ∧ a.toNat + k < s.cfg.memBase.toNat + s.cfg.memSize) →
      perform (.dumpMemory a n) s = some (.dumpRefused, s))

/-! ## Reset and the lifecycle -/

/-- R104, R105 (values of `hi`, `lo`, `cr`, `ll`: D14; the pending bit: log 3; zero memory: D16): what `reset()`
leaves from either lifecycle state, and what construction leaves. -/
def Obligations.ResetLeavesTheInitialLayout : Prop :=
  (∀ s : State, ∃ t, perform .reset s = some (.success, t) ∧ ResetValues s.cfg t ∧ BytesKept s t ∧
      t.image = s.image) ∧
    ∀ c : Config, ResetValues c (State.construct c) ∧ (∀ o, (State.construct c).byteAt o = 0#8) ∧
      (State.construct c).image = none

/-- R47 (bytes past the copy kept: D17; reset and no move while Running: D18; failed load: D31):
`loadImage`. -/
def Obligations.LoadImageCopiesThePayload : Prop :=
  ∀ (s : State) (bytes : List Byte), Memory.wf s.mem = true →
    (s.run = .running → perform (.loadImage bytes) s = none) ∧
    (s.run = .halted → bytes = [] → perform (.loadImage bytes) s = some (.imageTooSmall, s)) ∧
    (s.run = .halted → bytes ≠ [] →
      ∃ t, perform (.loadImage bytes) s = some (.success, t) ∧ ResetValues s.cfg t ∧ t.image = some bytes ∧
        ImageCopied s t bytes)

/-- R108 (stays Halted: D18): `resetAndReload`, from either lifecycle state, with and without an image. -/
def Obligations.ResetAndReloadCopiesTheKeptImage : Prop :=
  ∀ s : State, Memory.wf s.mem = true →
    ∃ t, perform .resetAndReload s = some (.success, t) ∧ ResetValues s.cfg t ∧ t.image = s.image ∧
      (s.image = none → BytesKept s t) ∧ (∀ bytes, s.image = some bytes → ImageCopied s t bytes)

/-- R106 (no reset: D19; strict: D21): `start()` in each case, in the order of the rule. -/
def Obligations.StartFollowsItsCases : Prop :=
  ∀ s : State, perform .start s =
    some (if s.image = none then (.noImageLoaded, s)
      else if s.run = .running then (.success, s)
      else if s.cfg.strictMode = true ∧ s.fault.isSome = true then (.success, s)
      else (.success, { s with run := .running }))

/-- R107, R103 (resume: the spec's own decision D19): from every state, Halted or Running, with or without an
image or a recorded fault, `stop()` succeeds and leaves the state with only `run` set to Halted, and a second
`stop()` changes nothing; and `stop()` then `start()` resumes: a Running core with an image and no recorded fault is
as before. -/
def Obligations.StopThenStartResumes : Prop :=
  (∀ s : State, perform .stop s = some (.success, { s with run := .halted }) ∧
    perform .stop { s with run := .halted } = some (.success, { s with run := .halted })) ∧
  ∀ s : State, s.run = .running → s.image ≠ none → s.fault = none →
    perform .start { s with run := .halted } = some (.success, s)

/-- R32, R87, R103: Halted is left only by `start()`, and entered only by `stop()`, `reset()`,
`resetAndReload()` or a strict-mode fault (`loadImage` has no move while Running, D18). -/
def Obligations.OnlyTheHostStartsAndStopsTheCore : Prop :=
  ∀ (op : BlockOp) (s t : State) (r : Reply), perform op s = some (r, t) →
    (s.run = .halted → t.run = .running → op = .start) ∧
    (s.run = .running → t.run = .halted →
      op = .stop ∨ op = .reset ∨ op = .resetAndReload ∨
        (op = .step ∧ s.cfg.strictMode = true ∧ t.fault ≠ none))

/-- R90: the only errors reported are `ImageTooSmall` of `loadImage` given an empty image and `NoImageLoaded` of
`start()` with no image, and neither changes any state. -/
def Obligations.HostErrorsAreTwoAndChangeNothing : Prop :=
  ∀ (op : BlockOp) (s t : State) (r : Reply), perform op s = some (r, t) →
    (r = .imageTooSmall ↔ op = .loadImage []) ∧
    (r = .noImageLoaded ↔ op = .start ∧ s.image = none) ∧
    (r = .imageTooSmall ∨ r = .noImageLoaded → t = s)

/-- R109 (D18, D22): while Running exactly `loadImage` and `writeWord` have no move; while Halted every
operation has one. -/
def Obligations.MemoryIsMutatedOnlyWhileHalted : Prop :=
  ∀ (op : BlockOp) (s : State),
    perform op s = none ↔
      s.run = .running ∧ ((∃ bytes, op = .loadImage bytes) ∨ ∃ a v, op = .writeWord a v)

/-- R110: `dumpRegisters()` reports the registers as they read, `pc`, `hi` and `lo`, and changes no state. -/
def Obligations.DumpRegistersReportsTheRegisters : Prop :=
  ∀ s : State, ∃ d, perform .dumpRegisters s = some (.registers d, s) ∧ d.pc = s.pc ∧ d.hi = s.hi ∧ d.lo = s.lo ∧
    ∀ q : RegNum, d.gpr[q.toNat]'(q.isLt) = s.readReg q

/-- R112 (with the default `RESET_VECTOR = MEM_BASE`, D4): after `loadImage` and `start()` the core is Running,
every register reads 0, and the first step fetches the big-endian word at image offset `HEADER_SIZE`. -/
def Obligations.BootFetchesTheImagePayload : Prop :=
  ∀ (s : State) (bytes : List Byte), Memory.wf s.mem = true → s.run = .halted →
    s.cfg.resetVector = s.cfg.memBase → s.cfg.headerSize + 4 ≤ bytes.length →
    ∃ t u, perform (.loadImage bytes) s = some (.success, t) ∧ perform .start t = some (.success, u) ∧
      u.run = .running ∧ u.pc = s.cfg.memBase ∧ (∀ q, u.readReg q = 0#32) ∧
      u.fetch = .ok (bytes.getD s.cfg.headerSize 0#8 ++ bytes.getD (s.cfg.headerSize + 1) 0#8 ++
        bytes.getD (s.cfg.headerSize + 2) 0#8 ++ bytes.getD (s.cfg.headerSize + 3) 0#8)

/-- R8 (D11): a configuration is accepted exactly where it meets the constraints, and keeps its values. -/
def Obligations.ConfigurationOutsideTheConstraintsIsRejected : Prop :=
  ∀ p : Params,
    ((∃ c : Config, Config.ofParams? p = some c ∧ c.toParams = p) ↔
      p.memBase.toNat % 4 = 0 ∧ p.memSize % 4 = 0 ∧ 0 < p.memSize ∧ p.memBase.toNat + p.memSize ≤ 2 ^ 32 ∧
        p.resetVector.toNat % 4 = 0)

/-! ## Strict mode: the spec's own definition (D21) -/

/-- R96, R97: the codes and their information; and the checks of a step in their order, fetch, decode, LW's
window, LW's alignment: the first that fails stops the step with nothing else written, and where none fails the
instruction runs. -/
def Obligations.StrictModeChecksInOrder : Prop :=
  (∀ pc w ea : Word,
    (StrictFault.fetchOutOfRange pc).code = 1 ∧ (StrictFault.fetchOutOfRange pc).info = [pc] ∧
    (StrictFault.unrecognized pc w).code = 2 ∧ (StrictFault.unrecognized pc w).info = [pc, w] ∧
    (StrictFault.loadOutOfRange pc ea).code = 3 ∧ (StrictFault.loadOutOfRange pc ea).info = [pc, ea] ∧
    (StrictFault.loadMisaligned pc ea).code = 4 ∧ (StrictFault.loadMisaligned pc ea).info = [pc, ea]) ∧
  ∀ s : State, s.run = .running → s.cfg.strictMode = true →
    if ¬ InWindow s.cfg s.pc ∨ s.pc.toNat % 4 ≠ 0 then step s = .next (faulted s (.fetchOutOfRange s.pc))
    else
      match decode (s.readWord s.pc) with
      | .unrecognized => step s = .next (faulted s (.unrecognized s.pc (s.readWord s.pc)))
      | .recognized (.lw rt rs imm) =>
        let ea := BitVec.ofInt 32 ((s.readReg rs).toInt + imm.toInt)
        if ¬ InWindow s.cfg ea then step s = .next (faulted s (.loadOutOfRange s.pc ea))
        else if ea.toNat % 4 ≠ 0 then step s = .next (faulted s (.loadMisaligned s.pc ea))
        else step s = exec (.lw rt rs imm) s
      | .recognized i => step s = exec i s

/-- R97, R106: a recorded fault keeps the core Halted under every operation, `start()` among them, until
`reset()`, `resetAndReload()` or a successful `loadImage` clears it. -/
def Obligations.StrictFaultIsSticky : Prop :=
  ∀ (op : BlockOp) (s t : State) (r : Reply) (f : StrictFault),
    s.cfg.strictMode = true → s.run = .halted → s.fault = some f → perform op s = some (r, t) →
    t.run = .halted ∧
      ((op = .reset ∨ op = .resetAndReload ∨ ∃ bytes, bytes ≠ [] ∧ op = .loadImage bytes) → t.fault = none) ∧
      (¬ (op = .reset ∨ op = .resetAndReload ∨ ∃ bytes, bytes ≠ [] ∧ op = .loadImage bytes) → t.fault = some f)

/-- R96, R97: strict mode adds faults and nothing else: a strict step that takes no fault leaves the state that
the same step leaves without strict mode. -/
def Obligations.StrictStepWithoutFaultIsTheSilentStep : Prop :=
  ∀ s t : State, s.fault = none → step s = .next t → t.fault = none → step (silent s) = .next (silent t)

/-! ## The assembler's forms (D23) -/

/-- R69: `nop`, `move`, `li` and `clear` do what their names say (destination register 0 among them), and
`halt` at a multiple of 4 is a J to its own address. -/
def Obligations.PseudoInstructionsDoAsNamed : Prop :=
  decode asmNop = .unrecognized ∧
    (∀ (s : State) (rd rs : RegNum), s.Quiet →
      ∃ t, exec (asmMove rd rs) s = .next t ∧ RegWritten s t rd (s.readReg rs) ∧ t.pc = s.pc + 4#32) ∧
    (∀ (s : State) (rt : RegNum) (imm : BitVec 16), s.Quiet →
      ∃ t, exec (asmLi rt imm) s = .next t ∧ RegWritten s t rt (BitVec.ofInt 32 imm.toInt) ∧
        t.pc = s.pc + 4#32) ∧
    (∀ (s : State) (rd : RegNum), s.Quiet →
      ∃ t, exec (asmClear rd) s = .next t ∧ RegWritten s t rd 0#32 ∧ t.pc = s.pc + 4#32) ∧
    (∀ own : Word, own.toNat % 4 = 0 → ∃ target, asmHalt own = .j target ∧ targetBits own target = own)

/-- R68, R80: the assembler accepts a jump address exactly where a jump at `own` can reach it, and the jump it
gives has that address as its target. R68 asks only that the top 4 bits agree; that an address that is no multiple
of 4, which no jump reaches (R83), is refused rather than rounded down is the model's own choice (log 17). -/
def Obligations.AssembledJumpsReachTheirAddress : Prop :=
  ∀ own address : Word,
    ((∃ target, targetBits own target = address) →
      ∃ target, asmJ own address = some (.j target) ∧ asmJal own address = some (.jal target) ∧
        targetBits own target = address) ∧
    ((¬ ∃ target, targetBits own target = address) → asmJ own address = none ∧ asmJal own address = none)
end

