-- ==== Sys2Proof/Tests/Slice0.lean ====
section
/-! SUPPORT. The tests of the model: the checks of a configuration each refuse an ill-formed term, every
constructor decodes from a word written out from 30_encoding.md, vectors of spec/95_test_vectors.md, and for every
statement with hypotheses a witness that meets them. -/

namespace Sys2Proof.Tests

open Sys2Proof.Machine Sys2Proof.Claims

/-! ## Configurations: R8 -/

/-- A small window at the reference base. -/
def small : Params := { Params.reference with memSize := 16, headerSize := 2 }

/-- `MEM_BASE` is no multiple of 4. -/
theorem test_wf_base : { small with memBase := 0x80000002#32 }.wf = false := by decide
/-- `MEM_SIZE` is no multiple of 4. -/
theorem test_wf_size : { small with memSize := 18 }.wf = false := by decide
/-- `MEM_SIZE` is 0. -/
theorem test_wf_positive : { small with memSize := 0 }.wf = false := by decide
/-- The window passes `2^32`. -/
theorem test_wf_fits : { small with memBase := 0xFFFFFFF8#32 }.wf = false := by decide
/-- `RESET_VECTOR` is no multiple of 4. -/
theorem test_wf_vector : { small with resetVector := 0x80000001#32 }.wf = false := by decide
/-- An ill-formed configuration is rejected, the largest window accepted. -/
theorem test_ofParams : Config.ofParams? { small with memSize := 0 } = none ∧
    (Config.ofParams? { small with memBase := 0#32, memSize := 2 ^ 32 }).isSome = true := by decide

/-- The small configuration. -/
def smallCfg : Config := { toParams := small, ok := by decide }
/-- With `LOGICAL_IMM_EXT = ZERO`. -/
def zeroCfg : Config := { toParams := { small with logicalImmExt := .zero }, ok := by decide }
/-- With `STRICT_MODE = true`. -/
def strictCfg : Config := { toParams := { small with strictMode := true }, ok := by decide }
/-- With the window and the reset vector at 0 and `ZERO_TARGET_IS_NO_TRANSFER = true`. -/
def lowCfg : Config := { toParams := { small with memBase := 0#32, resetVector := 0#32 }, ok := by decide }
/-- As `lowCfg` with `ZERO_TARGET_IS_NO_TRANSFER = false`. -/
def lowBitCfg : Config :=
  { toParams := { lowCfg.toParams with zeroTargetIsNoTransfer := false }, ok := by decide }

/-! ## Decoding: a word of each constructor, its fields as R55 and R56 place them -/

/-- ADD r3, r1, r2. -/
theorem test_decode_add :
    decode 0b00000000001000100001100000100000#32 = .recognized (.add 3#5 1#5 2#5 0#5) := by decide
/-- AND r30, r17, r12 with shamt 19. -/
theorem test_decode_and :
    decode 0b00000010001011001111010011100100#32 = .recognized (.and 30#5 17#5 12#5 19#5) := by decide
/-- OR r31, r0, r16. -/
theorem test_decode_or :
    decode 0b00000000000100001111100000100101#32 = .recognized (.or 31#5 0#5 16#5 0#5) := by decide
/-- SLT r1, r2, r4. -/
theorem test_decode_slt :
    decode 0b00000000010001000000100000101010#32 = .recognized (.slt 1#5 2#5 4#5 0#5) := by decide
/-- ADDI r2, r1, 0xFFFF. -/
theorem test_decode_addi :
    decode 0b00100000001000101111111111111111#32 = .recognized (.addi 2#5 1#5 0xFFFF#16) := by decide
/-- ANDI r2, r1, 0x8000. -/
theorem test_decode_andi :
    decode 0b00110000001000101000000000000000#32 = .recognized (.andi 2#5 1#5 0x8000#16) := by decide
/-- ORI r11, r24, 0x5678. -/
theorem test_decode_ori :
    decode 0b00110111000010110101011001111000#32 = .recognized (.ori 11#5 24#5 0x5678#16) := by decide
/-- LW r2, 0x20(r31). -/
theorem test_decode_lw :
    decode 0b10001111111000100000000000100000#32 = .recognized (.lw 2#5 31#5 0x0020#16) := by decide
/-- J with target 0x2AAAAAB. -/
theorem test_decode_j :
    decode 0b00001010101010101010101010101011#32 = .recognized (.j 0x2AAAAAB#26) := by decide
/-- JAL with target 2. -/
theorem test_decode_jal :
    decode 0b00001100000000000000000000000010#32 = .recognized (.jal 2#26) := by decide
/-- The words U1 to U8 of 95_test_vectors.md are Unrecognized. -/
theorem test_decode_unrecognized :
    [0x00000000#32, 0xAC220000#32, 0x10000005#32, 0x3C01ABCD#32, 0x0000000C#32, 0x03E00008#32, 0x00221821#32,
      0x40826000#32].map decode = List.replicate 8 .unrecognized := by decide
/-- A decoder consumes exactly 4 bytes (R54), the first in bits 31:24 (R41). -/
theorem test_decode_bytes :
    decodeBytes [0x20#8, 0x22#8, 0x00#8, 0x01#8, 0xAA#8] =
        .ok (.recognized (.addi 2#5 1#5 1#16), [0xAA#8]) ∧
      decodeBytes [0x20#8, 0x22#8, 0x00#8] = .error .tooFewBytes ∧
      decodeTableWord 32 0x20220001 = some (.addi 2#5 1#5 1#16) := ⟨rfl, rfl, rfl⟩

/-! ## Instructions: vectors of 95_test_vectors.md -/

/-- Registers 1 and 2 set, in a configuration. -/
def withX1X2 (c : Config) (x1 x2 : Word) : State := ((State.construct c).writeReg 1#5 x1).writeReg 2#5 x2

/-- One step on a word at `pc`. -/
def stepWord (s : State) (w : Nat) : Host.Outcome State Fault Refusal := step (s.withFetchWord 32 w)

/-- A register and `pc` of a next state. -/
def look (r : RegNum) : Host.Outcome State Fault Refusal → Option (Word × Word)
  | .next t => some (t.readReg r, t.pc)
  | _ => none

/-- A1: `0x7FFFFFFF + 1` wraps with no trap. -/
theorem test_add_wraps : look 3#5 (stepWord (withX1X2 smallCfg 0x7FFFFFFF#32 1#32) 0x00221820) =
    some (0x80000000#32, 0x80000004#32) := by decide
/-- A4: a result for `r0` is discarded. -/
theorem test_add_r0 : look 0#5 (stepWord (withX1X2 smallCfg 5#32 3#32) 0x00220020) =
    some (0#32, 0x80000004#32) := by decide
/-- A7. -/
theorem test_and : look 3#5 (stepWord (withX1X2 smallCfg 0xF0F0F0F0#32 0x0FF00FF0#32) 0x00221824) =
    some (0x00F000F0#32, 0x80000004#32) := by decide
/-- S4: OR of 5 and 3. -/
theorem test_or : look 3#5 (stepWord (withX1X2 smallCfg 5#32 3#32) 0x00221825) =
    some (7#32, 0x80000004#32) := by decide
/-- A9: -1 is less than 0. -/
theorem test_slt_signed : look 3#5 (stepWord (withX1X2 smallCfg 0xFFFFFFFF#32 0#32) 0x0022182A) =
    some (1#32, 0x80000004#32) := by decide
/-- A12: the largest is not less than the smallest. -/
theorem test_slt_extremes : look 3#5 (stepWord (withX1X2 smallCfg 0x7FFFFFFF#32 0x80000000#32) 0x0022182A) =
    some (0#32, 0x80000004#32) := by decide
/-- S5: adding 0xFFFF to 10 gives 9. -/
theorem test_addi_negative : look 2#5 (stepWord (withX1X2 smallCfg 10#32 0#32) 0x2022FFFF) =
    some (9#32, 0x80000004#32) := by decide
/-- B1: the wrap of ADDI. -/
theorem test_addi_wraps : look 2#5 (stepWord (withX1X2 smallCfg 0x7FFFFFFF#32 0#32) 0x20220001) =
    some (0x80000000#32, 0x80000004#32) := by decide
/-- B5, `SIGN`. -/
theorem test_andi_sign : look 2#5 (stepWord (withX1X2 smallCfg 0xFFFFFFFF#32 0#32) 0x30228000) =
    some (0xFFFF8000#32, 0x80000004#32) := by decide
/-- B5, `ZERO`. -/
theorem test_andi_zero : look 2#5 (stepWord (withX1X2 zeroCfg 0xFFFFFFFF#32 0#32) 0x30228000) =
    some (0x00008000#32, 0x80000004#32) := by decide
/-- B7, `SIGN`. -/
theorem test_ori_sign : look 2#5 (stepWord (withX1X2 smallCfg 0#32 0#32) 0x34028000) =
    some (0xFFFF8000#32, 0x80000004#32) := by decide
/-- B7, `ZERO`. -/
theorem test_ori_zero : look 2#5 (stepWord (withX1X2 zeroCfg 0#32 0#32) 0x34028000) =
    some (0x00008000#32, 0x80000004#32) := by decide
/-- L5 moved to the small window: one word past its end leaves the register unchanged, the last word loads. -/
theorem test_lw_edges :
    look 2#5 (stepWord (withX1X2 smallCfg 0x8000000C#32 0x77777777#32) 0x8C220004) =
        some (0x77777777#32, 0x80000004#32) ∧
      look 2#5 (stepWord ((withX1X2 smallCfg 0x8000000C#32 0x77777777#32).writeWord 0x8000000C#32 0x0BADF00D)
        0x8C220000) = some (0x0BADF00D#32, 0x80000004#32) := by decide
/-- L3 and L6: misaligned in the window gives 0; a negative offset reaches the word below. -/
theorem test_lw_misaligned :
    look 2#5 (stepWord (withX1X2 smallCfg 0x80000004#32 0x77777777#32) 0x8C220002) =
        some (0#32, 0x80000004#32) ∧
      look 2#5 (stepWord (withX1X2 smallCfg 0x80000004#32 0x77777777#32) 0x8C22FFFC) =
        some (0x8C22FFFC#32, 0x80000004#32) := by decide
/-- S6 and T2: the target field, and the region from the current `pc`. -/
theorem test_j :
    look 0#5 (exec (.j 1#26) { State.reset with pc := 0x80001000#32 }) = some (0#32, 0x80000004#32) ∧
      look 0#5 (exec (.j 0x3FFFFFF#26) { State.reset with pc := 0x8FFFFFFC#32 }) =
        some (0#32, 0x8FFFFFFC#32) := by decide
/-- T6: a jump to 0 in both settings of `ZERO_TARGET_IS_NO_TRANSFER`. -/
theorem test_j_zero :
    look 0#5 (exec (.j 0#26) { State.construct lowCfg with pc := 0x100#32 }) = some (0#32, 0x104#32) ∧
      look 0#5 (exec (.j 0#26) { State.construct lowBitCfg with pc := 0x100#32 }) = some (0#32, 0#32) := by decide
/-- S7 and T4: the link value is `pc + 8`. -/
theorem test_jal : look 31#5 (stepWord (State.construct smallCfg) 0x0C000002) =
    some (0x80000008#32, 0x80000008#32) := by decide
/-- T5: the link wraps. -/
theorem test_jal_wraps : look 31#5 (exec (.jal 0#26) { State.reset with pc := 0xFFFFFFF8#32 }) =
    some (0#32, 0xF0000000#32) := by decide
/-- U2: a store of another instruction set does nothing. -/
theorem test_unrecognized : look 2#5 (stepWord (withX1X2 smallCfg 0x80000008#32 5#32) 0xAC220000) =
    some (5#32, 0x80000004#32) := by decide

/-- The examples of R68, and a jump to its own address (R69). -/
theorem test_asm :
    asmText 0#32 (.add 3#5 1#5 2#5 0#5) = "add r3, r1, r2" ∧
      asmText 0#32 (.addi 1#5 0#5 0xFFFF#16) = "addi r1, r0, -1" ∧
      asmText 0#32 (.lw 2#5 31#5 0x20#16) = "lw r2, 32(r31)" ∧
      asmText 0x80000034#32 (asmHalt 0x80000034#32) = "j 0x80000034" := by decide

/-! ## Memory and the operations of the interface -/

/-- M1, M3, M7: a word is stored big-endian, reads back, and a misaligned read gives 0. -/
theorem test_write_word :
    let s := (State.construct smallCfg).writeWord 0x80000000#32 0x11223344
    s.mem = [(0, 0x11#8), (1, 0x22#8), (2, 0x33#8), (3, 0x44#8)] ∧ s.readWord 0x80000000#32 = 0x11223344#32 ∧
      s.readWord 0x80000002#32 = 0#32 ∧ s.writeWord 0x80000010#32 1 = s := by decide
/-- M2: a value wider than 32 bits is masked; a zero byte is not listed. -/
theorem test_write_word_masks :
    ((State.construct smallCfg).writeWord 0x80000004#32 0x100000005).mem = [(7, 5#8)] := by decide
/-- M8 and H1: the two errors. -/
theorem test_host_errors :
    perform (.loadImage []) (State.construct smallCfg) = some (.imageTooSmall, State.construct smallCfg) ∧
      perform .start (State.construct smallCfg) = some (.noImageLoaded, State.construct smallCfg) := by decide
/-- M9, M10: bytes from the header on, the others kept. -/
theorem test_load_image :
    ((State.construct smallCfg).hostLoadImage [9#8, 9#8, 1#8, 2#8]).2.mem = [(0, 1#8), (1, 2#8)] ∧
      ((State.construct smallCfg).hostLoadImage [9#8, 9#8]).2.mem = [] := by decide
/-- M12, M13: a dump needs no alignment and is refused outside the window. -/
theorem test_dump :
    ((State.construct smallCfg).writeWord 0x80000000#32 0x11223344).dumpMemory 0x80000001#32 3 =
        .bytes [0x22#8, 0x33#8, 0x44#8] ∧
      (State.construct smallCfg).dumpMemory 0x8000000E#32 4 = .dumpRefused := by decide
/-- H2: a step while Halted does nothing. -/
theorem test_halted : step State.reset = .next State.reset := rfl
/-- F5: after a fault `start()` leaves the core Halted, and `reset()` clears the fault. -/
theorem test_sticky :
    let s := { State.construct strictCfg with image := some [1#8], fault := some (.fetchOutOfRange 0x80400000#32) }
    s.hostStart.2.run = .halted ∧ s.hostReset.fault = none := by decide
/-- F1, F2: a fetch outside the window and an Unrecognized word in strict mode. -/
theorem test_strict_fetch :
    step { State.construct strictCfg with run := .running, pc := 0x80400000#32 } =
        .next { State.construct strictCfg with
          pc := 0x80400000#32, fault := some (.fetchOutOfRange 0x80400000#32) } ∧
      step { State.construct strictCfg with run := .running } =
        .next { State.construct strictCfg with fault := some (.unrecognized 0x80000000#32 0#32) } := ⟨rfl, rfl⟩

/-! ## Witnesses: every statement's hypotheses are met together -/

/-- A Running state at a word, in the configuration `c`. -/
def runningAt (c : Config) (w : Nat) : State := (State.construct c).withFetchWord 32 w

theorem witness_AddWritesWrappedSum : State.reset.Quiet := by decide
theorem witness_AndWritesBitwiseAnd : (withX1X2 smallCfg 5#32 3#32).Quiet := by decide
theorem witness_OrWritesBitwiseOr : (withX1X2 smallCfg 5#32 3#32).Quiet := by decide
theorem witness_SltWritesSignedComparison : (withX1X2 smallCfg 0x80000000#32 0x7FFFFFFF#32).Quiet := by decide
theorem witness_AddiWritesWrappedSum : (withX1X2 smallCfg 0x7FFFFFFF#32 0#32).Quiet := by decide
/-- Both settings of `LOGICAL_IMM_EXT`. -/
theorem witness_AndiWritesAndWithExtendedImmediate :
    ((State.construct smallCfg).Quiet ∧ smallCfg.logicalImmExt = .sign) ∧
      (State.construct zeroCfg).Quiet ∧ zeroCfg.logicalImmExt = .zero := by decide
theorem witness_OriWritesOrWithExtendedImmediate :
    ((State.construct smallCfg).Quiet ∧ smallCfg.logicalImmExt = .sign) ∧
      (State.construct zeroCfg).Quiet ∧ zeroCfg.logicalImmExt = .zero := by decide

/-- The effective addresses just below the window, its last byte, its last word and just past it. -/
theorem witness_LwLoadsByWindowAndAlignment :
    (State.construct smallCfg).Quiet ∧ smallCfg.strictMode = false ∧ ¬ InWindow smallCfg 0x7FFFFFFF#32 ∧
      (InWindow smallCfg 0x8000000F#32 ∧ (0x8000000F#32).toNat % 4 ≠ 0) ∧
      (InWindow smallCfg 0x8000000C#32 ∧ (0x8000000C#32).toNat % 4 = 0) ∧
      ¬ InWindow smallCfg 0x80000010#32 := by decide
theorem witness_StrictLwFaultsOrLoads :
    (State.construct strictCfg).Quiet ∧ strictCfg.strictMode = true ∧ ¬ InWindow strictCfg 0x80000010#32 ∧
      (InWindow strictCfg 0x8000000F#32 ∧ (0x8000000F#32).toNat % 4 ≠ 0) ∧
      (InWindow strictCfg 0x80000000#32 ∧ (0x80000000#32).toNat % 4 = 0) := by decide
/-- A taken target, and the zero target in both settings. -/
theorem witness_JTransfersToTarget :
    (State.construct lowCfg).Quiet ∧ (State.construct lowBitCfg).Quiet ∧
      (lowCfg.zeroTargetIsNoTransfer = true ∧ targetBits 0x100#32 0#26 = 0#32) ∧
      lowBitCfg.zeroTargetIsNoTransfer = false ∧ targetBits 0x100#32 1#26 ≠ 0#32 := by decide
theorem witness_JalLinksAndTransfers :
    (State.construct lowCfg).Quiet ∧ targetBits lowCfg.resetVector 0#26 = 0#32 ∧
      targetBits lowCfg.resetVector 0x3FFFFFF#26 ≠ 0#32 := by decide
theorem witness_UnrecognizedIsSilentNoOp :
    let s := runningAt smallCfg 0xAC220000
    s.Quiet ∧ s.run = .running ∧ s.cfg.strictMode = false ∧ decode (s.readWord s.pc) = .unrecognized := by decide

/-- A next state of a non-load, a load without strict mode, and a quiet state. -/
theorem witness_InstructionFrame :
    (∃ t, exec (.add 3#5 1#5 2#5 0#5) State.reset = .next t) ∧ destination (.add 3#5 1#5 2#5 0#5) ≠ some 31#5 ∧
      isLoad (.add 3#5 1#5 2#5 0#5) = false ∧ (∃ t, exec (.lw 1#5 2#5 0#16) State.reset = .next t) ∧
      isLoad (.lw 1#5 2#5 0#16) = true ∧ State.reset.cfg.strictMode = false ∧ State.reset.Quiet :=
  ⟨⟨_, rfl⟩, by decide, by decide, ⟨_, rfl⟩, by decide, by decide, by decide⟩
theorem witness_UnreadRegistersDoNotMatter :
    (4#5 : RegNum) ∉ sources (.add 3#5 1#5 2#5 0#5) ∧ destination (.add 3#5 1#5 2#5 0#5) ≠ some 4#5 ∧
      (30#5 : RegNum) ∉ sources (.jal 0#26) ∧ destination (.jal 0#26) ≠ some 30#5 := by decide
theorem witness_InertRegistersHaveNoPartInAStep : ∃ t, step (runningAt smallCfg 0x20220001) = .next t := ⟨_, rfl⟩
/-- Both settings, with and without a pending transfer. -/
theorem witness_RetireTakesPendingTransferOrAdvances :
    ((State.construct lowCfg).setTransfer 4#32).nextPc ≠ 0#32 ∧ (State.construct lowCfg).nextPc = 0#32 ∧
      lowCfg.zeroTargetIsNoTransfer = true ∧ lowBitCfg.zeroTargetIsNoTransfer = false ∧
      ((State.construct lowBitCfg).setTransfer 0#32).pending = true ∧
      (State.construct lowBitCfg).pending = false := by decide
theorem witness_RegisterZeroReadsZeroAndDiscardsWrites :
    ∃ t, exec (.add 0#5 1#5 2#5 0#5) (withX1X2 smallCfg 5#32 3#32) = .next t := ⟨_, rfl⟩
theorem witness_EncodeOfDecodedWord : decode 0x00221FE0#32 = .recognized (.add 3#5 1#5 2#5 31#5) := by decide
theorem witness_ShamtIsIgnored :
    (0x00221820#32).extractLsb' 26 6 = 0#6 ∧
      (0x00221820#32).extractLsb' 11 21 = (0x00221FE0#32).extractLsb' 11 21 ∧
      (0x00221820#32).extractLsb' 0 6 = (0x00221FE0#32).extractLsb' 0 6 ∧
      decode 0x00221820#32 = .recognized (.add 3#5 1#5 2#5 0#5) := by decide
/-- Both settings, on both sides of bit 15. -/
theorem witness_ImmediatesAndTargets :
    smallCfg.logicalImmExt = .sign ∧ zeroCfg.logicalImmExt = .zero ∧ (0x7FFF#16).toNat < 2 ^ 15 ∧
      ¬ (0x8000#16).toNat < 2 ^ 15 := by decide

/-- Halted; a recognized word; an unrecognized word; a `pc` just past the window. -/
theorem witness_StepRunsTheDecodedInstruction :
    State.reset.run = .halted ∧
      (let s := runningAt smallCfg 0x20220001
       s.run = .running ∧ s.cfg.strictMode = false ∧
         decode (s.readWord s.pc) = .recognized (.addi 2#5 1#5 1#16)) ∧
      (let s := runningAt smallCfg 0
       s.run = .running ∧ s.cfg.strictMode = false ∧ decode (s.readWord s.pc) = .unrecognized) ∧
      ¬ InWindow smallCfg 0x80000010#32 := by decide
/-- J and JAL without strict mode, J in strict mode to the last word of the window, and J and JAL to address 0 where
the pending bit is kept. -/
theorem witness_JumpTakesEffectOnTheNextStep :
    (let s := runningAt smallCfg 0x08000002
     s.Quiet ∧ s.run = .running ∧ decode (s.readWord s.pc) = .recognized (.j 2#26) ∧
       targetBits s.pc 2#26 ≠ 0#32 ∧ s.cfg.strictMode = false) ∧
      (let s := runningAt smallCfg 0x0C000002
       s.Quiet ∧ s.run = .running ∧ decode (s.readWord s.pc) = .recognized (.jal 2#26) ∧
         targetBits s.pc 2#26 ≠ 0#32 ∧ s.cfg.strictMode = false) ∧
      (let s := runningAt strictCfg 0x08000003
       s.Quiet ∧ s.run = .running ∧ decode (s.readWord s.pc) = .recognized (.j 3#26) ∧
         targetBits s.pc 3#26 ≠ 0#32 ∧ InWindow s.cfg (targetBits s.pc 3#26)) ∧
      (let s := runningAt lowBitCfg 0x08000000
       s.Quiet ∧ s.run = .running ∧ decode (s.readWord s.pc) = .recognized (.j 0#26) ∧
         targetBits s.pc 0#26 = 0#32 ∧ s.cfg.zeroTargetIsNoTransfer = false ∧ s.cfg.strictMode = false) ∧
      (let s := runningAt lowBitCfg 0x0C000000
       s.Quiet ∧ s.run = .running ∧ decode (s.readWord s.pc) = .recognized (.jal 0#26) ∧
         targetBits s.pc 0#26 = 0#32 ∧ s.cfg.zeroTargetIsNoTransfer = false) := by decide
/-- A `pc` just past the window, and a misaligned one in it. -/
theorem witness_SilentModeNeverStops :
    (let s := { runningAt smallCfg 0x20220001 with pc := 0x80000010#32 }
     s.cfg.strictMode = false ∧ s.Quiet ∧ s.run = .running ∧ ¬ InWindow s.cfg s.pc) ∧
      (let s := { runningAt smallCfg 0x20220001 with pc := 0x8000000E#32 }
       s.cfg.strictMode = false ∧ s.Quiet ∧ s.run = .running ∧ s.pc.toNat % 4 ≠ 0) := by decide
/-- Three steps that wrap at the top of the address space. -/
theorem witness_CoreWalksForwardOutsideTheWindow :
    let s := { runningAt smallCfg 0x20220001 with pc := 0xFFFFFFF8#32 }
    s.Quiet ∧ s.run = .running ∧ s.cfg.strictMode = false ∧
      ∀ j, j < 3 → ¬ InWindow s.cfg (s.pc + BitVec.ofNat 32 (4 * j)) := by decide
theorem witness_SelfLoopIsAFixedPoint :
    let s := runningAt smallCfg 0x08000000
    s.Quiet ∧ s.run = .running ∧ s.atSelfLoop = true ∧ (s.cfg.zeroTargetIsNoTransfer = true → s.pc ≠ 0#32) := by
  decide

/-- The state after a load and `start()`, Running at an ADDI. -/
def booted : State :=
  ((State.construct smallCfg).hostLoadImage [0#8, 0#8, 0x20#8, 0x22#8, 0#8, 1#8]).2.hostStart.2

theorem witness_StepKeepsInvariant :
    booted.Inv ∧ booted.run = .running ∧ ∃ t, step booted = .next t := ⟨by decide, by decide, _, rfl⟩
/-- An operation on a Running state and one on a Halted state. -/
theorem witness_OperationsKeepInvariant :
    booted.Inv ∧ perform .stop booted = some (.success, booted.hostStop) ∧ State.reset.Inv ∧
      perform (.writeWord 0x80000000#32 1) State.reset =
        some (.success, State.reset.writeWord 0x80000000#32 1) :=
  ⟨by decide, rfl, by decide, rfl⟩
theorem witness_ConfigurationNeverChanges : perform .reset booted = some (.success, booted.hostReset) := rfl
/-- The first and the last word of the window, and the two outside. -/
theorem witness_WriteWordStoresBigEndian :
    Memory.wf booted.mem = true ∧ (InWindow smallCfg 0x80000000#32 ∧ (0x80000000#32).toNat % 4 = 0) ∧
      (InWindow smallCfg 0x8000000C#32 ∧ (0x8000000C#32).toNat % 4 = 0) ∧ ¬ InWindow smallCfg 0x80000010#32 ∧
      (0x8000000E#32).toNat % 4 ≠ 0 := by decide
theorem witness_HostWriteIsSeenByTheNextFetch :
    let s := State.construct smallCfg
    Memory.wf s.mem = true ∧
      perform (.writeWord 0x80000000#32 7) s = some (.success, s.writeWord 0x80000000#32 7) ∧
      InWindow s.cfg 0x80000000#32 ∧ (0x80000000#32).toNat % 4 = 0 ∧
      (s.writeWord 0x80000000#32 7).pc = 0x80000000#32 ∧
      (∃ t, step booted = .next t) := ⟨by decide, rfl, by decide, by decide, by decide, _, rfl⟩
/-- A dump that ends at the window's last byte, and one that ends a byte later. -/
theorem witness_DumpMemoryAnswersTheBytes :
    (∀ k, k < 2 → (0x80000000 : Nat) ≤ 0x8000000E + k ∧ 0x8000000E + k < 0x80000000 + 16) ∧
      ¬ (∀ k, k < 3 → (0x80000000 : Nat) ≤ 0x8000000E + k ∧ 0x8000000E + k < 0x80000000 + 16) := by decide
/-- Running; Halted with an empty image; Halted with an image shorter than the header. -/
theorem witness_LoadImageCopiesThePayload :
    (Memory.wf booted.mem = true ∧ booted.run = .running) ∧
      (Memory.wf State.reset.mem = true ∧ State.reset.run = .halted) ∧ [1#8] ≠ ([] : List Byte) := by decide
/-- With and without an image. -/
theorem witness_ResetAndReloadCopiesTheKeptImage :
    (Memory.wf booted.mem = true ∧ booted.image = some [0#8, 0#8, 0x20#8, 0x22#8, 0#8, 1#8]) ∧
      Memory.wf State.reset.mem = true ∧ State.reset.image = none := by decide
/-- A Running core with an image and no fault; `stop()` itself asks nothing of the state. -/
theorem witness_StopThenStartResumes :
    booted.run = .running ∧ booted.image ≠ none ∧ booted.fault = none := by decide
/-- Leaving Halted by `start()`, and entering it by `stop()` and by a strict-mode fault. -/
theorem witness_OnlyTheHostStartsAndStopsTheCore :
    (perform .start booted.hostStop = some (.success, booted) ∧ booted.hostStop.run = .halted ∧
        booted.run = .running) ∧
      (perform .stop booted = some (.success, booted.hostStop)) ∧
      (∃ t, perform .step (runningAt strictCfg 0) = some (.success, t) ∧ t.run = .halted ∧ t.fault ≠ none) :=
  ⟨⟨rfl, rfl, rfl⟩, rfl, _, rfl, rfl, by decide⟩
theorem witness_HostErrorsAreTwoAndChangeNothing :
    perform (.loadImage []) State.reset = some (.imageTooSmall, State.reset) ∧
      perform .start State.reset = some (.noImageLoaded, State.reset) ∧
      perform .start booted = some (.success, booted) := ⟨rfl, rfl, rfl⟩
theorem witness_BootFetchesTheImagePayload :
    let s := State.construct smallCfg
    Memory.wf s.mem = true ∧ s.run = .halted ∧ s.cfg.resetVector = s.cfg.memBase ∧
      s.cfg.headerSize + 4 ≤ [0#8, 0#8, 0x20#8, 0x22#8, 0#8, 1#8].length := by decide
/-- Each outcome of a strict step: the four faults, and an instruction that runs. -/
theorem witness_StrictModeChecksInOrder :
    (let s := { runningAt strictCfg 0 with pc := 0x80000010#32 }
     s.run = .running ∧ s.cfg.strictMode = true ∧ ¬ InWindow s.cfg s.pc) ∧
      (let s := runningAt strictCfg 0
       s.run = .running ∧ InWindow s.cfg s.pc ∧ s.pc.toNat % 4 = 0 ∧
         decode (s.readWord s.pc) = .unrecognized) ∧
      (let s := runningAt strictCfg 0x8C220000
       s.run = .running ∧ decode (s.readWord s.pc) = .recognized (.lw 2#5 1#5 0#16) ∧
         ¬ InWindow s.cfg (BitVec.ofInt 32 ((s.readReg 1#5).toInt + (0#16).toInt))) ∧
      (let s := runningAt strictCfg 0x20220001
       s.run = .running ∧ decode (s.readWord s.pc) = .recognized (.addi 2#5 1#5 1#16)) := by decide
/-- A recorded fault under an operation that keeps it and one that clears it. -/
theorem witness_StrictFaultIsSticky :
    let s := faulted (runningAt strictCfg 0) (.unrecognized 0x80000000#32 0#32)
    s.cfg.strictMode = true ∧ s.run = .halted ∧ s.fault = some (.unrecognized 0x80000000#32 0#32) ∧
      perform .step s = some (.success, s) ∧ perform .reset s = some (.success, s.hostReset) :=
  ⟨rfl, rfl, rfl, rfl, rfl⟩
theorem witness_StrictStepWithoutFaultIsTheSilentStep :
    (runningAt strictCfg 0x20220001).fault = none ∧
      ∃ t, step (runningAt strictCfg 0x20220001) = .next t ∧ t.fault = none := ⟨rfl, _, rfl, rfl⟩
theorem witness_PseudoInstructionsDoAsNamed : State.reset.Quiet ∧ (0xFFFFFFFC#32).toNat % 4 = 0 := by decide
/-- Two addresses out of reach: the first of the next region, and a misaligned one of the own region. -/
theorem unreachable_address :
    (¬ ∃ target, targetBits 0x80000000#32 target = 0x90000000#32) ∧
      ¬ ∃ target, targetBits 0x80000000#32 target = 0x80000006#32 := by
  constructor
  · rintro ⟨target, h⟩
    have h28 := congrArg (fun w : Word => w.getLsbD 28) h
    simp only [targetBits, BitVec.getLsbD_append, BitVec.getLsbD_extractLsb'] at h28
    exact absurd h28 (by simp)
  · rintro ⟨target, h⟩
    have h1 := congrArg (fun w : Word => w.getLsbD 1) h
    simp only [targetBits, BitVec.getLsbD_append, BitVec.getLsbD_extractLsb'] at h1
    exact absurd h1 (by simp)
/-- An address in reach, the last of the region, and the two out of reach. -/
theorem witness_AssembledJumpsReachTheirAddress :
    (∃ target, targetBits 0x80000000#32 target = 0x8FFFFFFC#32) ∧
      (¬ ∃ target, targetBits 0x80000000#32 target = 0x90000000#32) ∧
      ¬ ∃ target, targetBits 0x80000000#32 target = 0x80000006#32 :=
  ⟨⟨0x3FFFFFF#26, by decide⟩, unreachable_address⟩
/-- A misaligned address is refused (log 17), the word it lies in is accepted. -/
theorem test_asm_misaligned :
    asmJ 0x80000000#32 0x80000006#32 = none ∧ asmJ 0x80000000#32 0x80000004#32 = some (.j 1#26) := by decide

end Sys2Proof.Tests
end

section
/-! PROOF. The statements about the block's state (10_state.md), O13, O14, O17, O29 and O46, and the rules they rest
on: what a register write commutes with, the frame of an instruction by its destination register, and that each
shared operation keeps the invariant. -/

namespace Sys2Proof.Machine

open Sys2Proof.Claims

/-! ## Register writes -/

section RegisterWrites

variable (s : State) (r : RegNum) (v : Word)

/-- A read of another register, or of register 0, does not see a write. -/
theorem State.readReg_writeReg_of_ne {r q : RegNum} (h : q = r → q = 0#5) :
    (s.writeReg r v).readReg q = s.readReg q := by
  rw [State.readReg_writeReg, if_neg fun hq => hq.2 (h hq.1)]

theorem State.writeReg_comm {r q : RegNum} (h : q ≠ r) (w : Word) :
    (s.writeReg r v).writeReg q w = (s.writeReg q w).writeReg r v := by
  have hn : r.toNat ≠ q.toNat := fun e => h (BitVec.eq_of_toNat_eq e.symm)
  by_cases hr : r = 0#5
  · simp [hr]
  · by_cases hq : q = 0#5
    · simp [hq]
    · simp [State.writeReg, hr, hq, Vector.set_comm _ _ hn]

theorem State.setTransfer_writeReg (t : Word) :
    (s.writeReg r v).setTransfer t = (s.setTransfer t).writeReg r v := by
  unfold State.writeReg
  split <;> rfl

theorem State.takeFault_writeReg (f : StrictFault) :
    (s.writeReg r v).takeFault f = (s.takeFault f).writeReg r v := by
  unfold State.writeReg
  split <;> rfl

theorem State.transferPending_writeReg : (s.writeReg r v).transferPending = s.transferPending := by
  simp [State.transferPending]

theorem State.retire_writeReg : (s.writeReg r v).retire = s.retire.writeReg r v := by
  unfold State.retire
  rw [State.transferPending_writeReg]
  unfold State.writeReg
  split <;> split <;> rfl

@[simp] theorem State.byteAt_writeReg (o : Nat) : (s.writeReg r v).byteAt o = s.byteAt o := by
  simp [State.byteAt]

@[simp] theorem State.readWord_writeReg (a : Word) : (s.writeReg r v).readWord a = s.readWord a := by
  simp [State.readWord]

end RegisterWrites

/-! ## Registers that an instruction does not read or write (O14) -/

/-- The end of an instruction whose destination is another register. -/
theorem State.finish_writeReg (s : State) {r d : RegNum} (v w : Word) (h : d ≠ r) :
    (s.writeReg r v).finish d w = mapNext (fun t => t.writeReg r v) (s.finish d w) := by
  simp only [State.finish, mapNext, State.writeReg_comm s v h, State.retire_writeReg]

/-- A load into another register, with its effective address given. -/
theorem State.loadInto_writeReg (s : State) {r d : RegNum} (v ea : Word) (h : d ≠ r) :
    (s.writeReg r v).loadInto d ea = mapNext (fun t => t.writeReg r v) (s.loadInto d ea) := by
  unfold State.loadInto
  simp only [State.writeReg_cfg, State.writeReg_pc, State.readWord_writeReg, State.takeFault_writeReg,
    State.retire_writeReg, State.finish_writeReg s v _ h]
  split <;> split <;> rfl

/-- Settles O14: each source reads the same after the write, and the write commutes with all that follows. -/
theorem unreadRegistersDoNotMatter : Obligations.UnreadRegistersDoNotMatter := by
  intro i s r v hsrc hdst
  have hread : ∀ q ∈ sources i, (s.writeReg r v).readReg q = s.readReg q := fun q hq =>
    State.readReg_writeReg_of_ne s v fun e => absurd (e ▸ hq) hsrc
  have hdest : ∀ d, destination i = some d → d ≠ r := fun d hd e => hdst (e ▸ hd)
  cases i with
  | add rd rs rt shamt | and rd rs rt shamt | or rd rs rt shamt | slt rd rs rt shamt =>
    have hrs := hread rs (by simp [sources])
    have hrt := hread rt (by simp [sources])
    simp only [exec, execAdd, execAnd, execOr, execSlt, hrs, hrt]
    exact State.finish_writeReg s v _ (hdest rd rfl)
  | addi rt rs imm | andi rt rs imm | ori rt rs imm =>
    have hrs := hread rs (by simp [sources])
    simp only [exec, execAddi, execAndi, execOri, hrs, State.writeReg_cfg]
    exact State.finish_writeReg s v _ (hdest rt rfl)
  | lw rt rs imm =>
    have hrs := hread rs (by simp [sources])
    simp only [exec, execLw, State.effectiveAddress, hrs]
    exact State.loadInto_writeReg s v _ (hdest rt rfl)
  | j target =>
    simp only [exec, execJ, mapNext, State.writeReg_pc, State.setTransfer_writeReg, State.retire_writeReg]
  | jal target =>
    simp only [exec, execJal, mapNext, State.writeReg_pc, State.writeReg_comm s v (hdest 31#5 rfl),
      State.setTransfer_writeReg, State.retire_writeReg]

/-! ## Frame of an instruction (O13) -/

/-- A register whose write leaves every register but the destination of `i` as it reads: the destination, or
register 0. -/
def MayWrite (i : Instr) (r : RegNum) : Prop := destination i = some r ∨ r = 0#5

/-- A write that an instruction may do is not seen in another register than its destination. -/
theorem MayWrite.readReg_writeReg {i : Instr} {r : RegNum} (h : MayWrite i r) (s : State) (v : Word) {q : RegNum}
    (hq : destination i ≠ some q) : (s.writeReg r v).readReg q = s.readReg q :=
  State.readReg_writeReg_of_ne s v fun e => h.elim (fun hd => absurd (e ▸ hd) hq) (e.trans ·)

/-- The shapes of the state a load leaves: a write to its register or none and Retire, or a strict-mode fault. -/
theorem State.loadInto_shape (s : State) (rt : RegNum) (ea : Word) :
    (∃ r v, (r = rt ∨ r = 0#5) ∧ s.loadInto rt ea = .next (s.writeReg r v).retire) ∨
      (s.cfg.strictMode = true ∧ ∃ f, s.loadInto rt ea = .next (s.takeFault f)) := by
  unfold State.loadInto
  split
  · split
    · exact .inr ⟨‹_›, _, rfl⟩
    · exact .inl ⟨0#5, 0#32, .inr rfl, rfl⟩
  · split
    · rename_i hmis
      exact .inr ⟨(Bool.and_eq_true_iff.mp hmis).1, _, rfl⟩
    · exact .inl ⟨rt, _, .inl rfl, rfl⟩

/-- `exec_shape` with the register written and the instruction that faults: the state an instruction leaves is a
write to its destination or none and Retire; such a write, a transfer and Retire; or the fault of a load. -/
theorem exec_next_cases {i : Instr} {s t : State} (h : exec i s = .next t) :
    (∃ r v, MayWrite i r ∧ t = (s.writeReg r v).retire) ∨
      (∃ r v target, MayWrite i r ∧ t = ((s.writeReg r v).setTransfer (jumpTarget s.pc target)).retire) ∨
      (isLoad i = true ∧ s.cfg.strictMode = true ∧ ∃ f, t = s.takeFault f) := by
  cases i with
  | lw rt rs imm =>
    have hl : s.loadInto rt (s.effectiveAddress rs imm) = .next t := h
    rcases s.loadInto_shape rt (s.effectiveAddress rs imm) with ⟨r, v, hr, hs⟩ | ⟨hstrict, f, hs⟩
    · cases hl.symm.trans hs
      exact .inl ⟨r, v, hr.imp_left (congrArg some ·.symm), rfl⟩
    · cases hl.symm.trans hs
      exact .inr (.inr ⟨rfl, hstrict, f, rfl⟩)
  | j target =>
    cases h
    exact .inr (.inl ⟨0#5, 0#32, target, .inr rfl, rfl⟩)
  | jal target =>
    cases h
    exact .inr (.inl ⟨31#5, _, target, .inl rfl, rfl⟩)
  | _ =>
    cases h
    exact .inl ⟨_, _, .inl rfl, rfl⟩

theorem State.retire_quiet {s : State} (h : s.Quiet) : s.retire.Quiet := by
  rw [State.retire_of_quiet s h]
  exact h

theorem State.retire_setTransfer_quiet {s : State} (h : s.Quiet) (a : Word) : (s.setTransfer a).retire.Quiet := by
  rw [State.retire_setTransfer s a h]
  exact h

theorem State.writeReg_quiet {s : State} (h : s.Quiet) (r : RegNum) (v : Word) : (s.writeReg r v).Quiet := by
  simpa [State.Quiet] using h

@[simp] theorem State.byteAt_retire (s : State) (o : Nat) : s.retire.byteAt o = s.byteAt o := by
  simp [State.byteAt]

@[simp] theorem State.byteAt_setTransfer (s : State) (a : Word) (o : Nat) :
    (s.setTransfer a).byteAt o = s.byteAt o := rfl

/-- Settles O13, by the three shapes of the state an instruction leaves. -/
theorem instructionFrame : Obligations.InstructionFrame := by
  intro i s t h
  rcases exec_next_cases h with ⟨r, v, hr, rfl⟩ | ⟨r, v, target, hr, rfl⟩ | ⟨hload, hstrict, f, rfl⟩
  · refine ⟨fun q hq => ?_, ?_, fun _ => by simp, fun hs => State.retire_quiet (State.writeReg_quiet hs r v)⟩
    · rw [State.readReg_retire, hr.readReg_writeReg s v hq]
    · simp [InertKept, BytesKept]
  · refine ⟨fun q hq => ?_, ?_, fun _ => by simp,
      fun hs => State.retire_setTransfer_quiet (State.writeReg_quiet hs r v) _⟩
    · rw [State.readReg_retire, State.readReg_setTransfer, hr.readReg_writeReg s v hq]
    · simp [InertKept, BytesKept]
  · refine ⟨fun q _ => rfl, ⟨rfl, rfl, rfl, rfl, rfl, rfl, fun _ => rfl⟩, fun hno => ?_, fun hs => hs⟩
    simp [hload, hstrict] at hno

/-! ## Register 0 and the register dump (O17, O46) -/

/-- No instruction changes the stored register 0 (R20). -/
theorem exec_gpr_zero {i : Instr} {s t : State} (h : exec i s = .next t) : t.gpr[0] = s.gpr[0] := by
  rcases exec_next_cases h with ⟨r, v, -, rfl⟩ | ⟨r, v, target, -, rfl⟩ | ⟨-, -, f, rfl⟩
  · simp [State.writeReg_gpr_zero]
  · simp [State.writeReg_gpr_zero]
  · rfl

/-- The register snapshot holds what each register reads as. -/
theorem State.dumpRegisters_gpr (s : State) (q : RegNum) :
    s.dumpRegisters.gpr[q.toNat]'(q.isLt) = s.readReg q := by
  by_cases hq : q = 0#5
  · simp [hq, State.dumpRegisters]
  · have hn : 0 ≠ q.toNat := fun e => hq (BitVec.eq_of_toNat_eq e.symm)
    simp [State.dumpRegisters, State.readReg, hq, hn]

/-- Settles O17: the rules of the register file, and the shapes of the state an instruction leaves. -/
theorem registerZeroReadsZeroAndDiscardsWrites : Obligations.RegisterZeroReadsZeroAndDiscardsWrites :=
  fun s r q v => ⟨s.readReg_zero, s.writeReg_zero v, s.readReg_writeReg r q v, fun _ _ => exec_gpr_zero,
    s.dumpRegisters_gpr 0#5⟩

/-- Settles O46: the snapshot is `State.dumpRegisters`. -/
theorem dumpRegistersReportsTheRegisters : Obligations.DumpRegistersReportsTheRegisters :=
  fun s => ⟨s.dumpRegisters, rfl, rfl, rfl, rfl, s.dumpRegisters_gpr⟩

/-! ## The invariant (O29) -/

/-- The next instruction address is a multiple of 4, also where it wraps. -/
theorem add_four_aligned {pc : Word} (h : pc.toNat % 4 = 0) : (pc + 4#32).toNat % 4 = 0 := by
  rw [BitVec.toNat_add, BitVec.toNat_ofNat]
  omega

/-- A jump target is a multiple of 4, its two low bits being those of neither operand of the `|||` (R63, R83). -/
theorem jumpTarget_aligned (pc : Word) (target : BitVec 26) : (jumpTarget pc target).toNat % 4 = 0 := by
  have hpage : (pc &&& 0xF0000000#32).toNat % 2 ^ 2 = 0 := by
    rw [BitVec.toNat_and, Nat.and_mod_two_pow]
    exact Nat.and_zero _
  have hfield : (target.zeroExtend 32 <<< 2).toNat % 2 ^ 2 = 0 := by
    rw [BitVec.toNat_shiftLeft, Nat.shiftLeft_eq]
    omega
  calc (jumpTarget pc target).toNat % 2 ^ 2
      = (pc &&& 0xF0000000#32).toNat % 2 ^ 2 ||| (target.zeroExtend 32 <<< 2).toNat % 2 ^ 2 := by
        rw [jumpTarget, BitVec.toNat_or, Nat.or_mod_two_pow]
    _ = 0 := by rw [hpage, hfield]; rfl

section Invariant

variable {s : State}

/-- The invariant speaks of `pc` only in its alignment. -/
theorem State.inv_setPc (h : s.Inv) {a : Word} (ha : a.toNat % 4 = 0) : { s with pc := a }.Inv := by
  obtain ⟨hquiet, -, hmem, hinert, hfault, himage⟩ := h
  exact ⟨hquiet, ha, hmem, hinert, hfault, himage⟩

theorem State.inv_retire (h : s.Inv) : s.retire.Inv := by
  have ⟨hquiet, hpc, _⟩ := h
  rw [State.retire_of_quiet s hquiet]
  exact State.inv_setPc h (add_four_aligned hpc)

/-- A jump to an aligned target, taken or not (D13). -/
theorem State.inv_retire_setTransfer (h : s.Inv) {a : Word} (ha : a.toNat % 4 = 0) : (s.setTransfer a).retire.Inv := by
  have ⟨hquiet, hpc, _⟩ := h
  rw [State.retire_setTransfer s a hquiet]
  refine State.inv_setPc h ?_
  split
  · exact add_four_aligned hpc
  · exact ha

theorem State.inv_writeReg (h : s.Inv) (r : RegNum) (v : Word) : (s.writeReg r v).Inv := by
  simpa [State.Inv, State.Quiet, State.PcAligned, State.MemOk, State.InertZero, State.FaultOk, State.ImageOk,
    State.writeReg_gpr_zero] using h

/-- A fault halts the core, so it meets what a recorded fault asks of `run`. -/
theorem State.inv_takeFault (h : s.Inv) (hstrict : s.cfg.strictMode = true) (f : StrictFault) :
    (s.takeFault f).Inv := by
  obtain ⟨hquiet, hpc, hmem, hinert, -, -, hempty⟩ := h
  have hfault : (s.takeFault f).FaultOk := ⟨fun hsilent => by simp [hstrict] at hsilent, fun _ => rfl⟩
  exact ⟨hquiet, hpc, hmem, hinert, hfault, fun hrun => by simp at hrun, hempty⟩

end Invariant

theorem exec_keeps_inv {i : Instr} {s t : State} (hinv : s.Inv) (h : exec i s = .next t) : t.Inv := by
  rcases exec_next_cases h with ⟨r, v, -, rfl⟩ | ⟨r, v, target, -, rfl⟩ | ⟨-, hstrict, f, rfl⟩
  · exact State.inv_retire (State.inv_writeReg hinv r v)
  · exact State.inv_retire_setTransfer (State.inv_writeReg hinv r v) (jumpTarget_aligned s.pc target)
  · exact State.inv_takeFault hinv hstrict f

/-- Settles O29, by the four shapes of a step. -/
theorem stepKeepsInvariant : Obligations.StepKeepsInvariant := by
  intro s t hinv h
  rcases step_shape s with ⟨-, hs⟩ | ⟨-, hstrict, f, hs⟩ | ⟨-, hs⟩ | ⟨-, i, -, hs⟩
  · cases hs.symm.trans h
    exact hinv
  · cases hs.symm.trans h
    exact State.inv_takeFault hinv hstrict f
  · cases hs.symm.trans h
    exact State.inv_retire hinv
  · exact exec_keeps_inv hinv (hs.symm.trans h)

end Sys2Proof.Machine
end

section
/-! PROOF. The statements about memory (20_memory.md), O27, O34 and O35, and the rules they rest on: where a word
access reaches memory, in the words of the statements, what a byte and a word read as after a word write, and the
step that fetches no instruction. -/

namespace Sys2Proof.Machine

open Sys2Proof.Claims

/-! ## The window -/

theorem inWindow_iff (c : Config) (a : Word) : inWindow c a = true ↔ InWindow c a := by
  simp [inWindow]

/-- `wordReaches` in the words of the claims about `readWord` (R37, R38). -/
theorem wordReaches_iff_offset (c : Config) (a : Word) :
    wordReaches c a = true ↔ InWindow c a ∧ (a.toNat - c.memBase.toNat) % 4 = 0 := by
  rw [wordReaches_iff, inWindow_iff, offset]

/-- `wordReaches` in the words of the claims about `writeWord`: alignment of the address itself (R37, R39). -/
theorem wordReaches_iff_address (c : Config) (a : Word) :
    wordReaches c a = true ↔ InWindow c a ∧ a.toNat % 4 = 0 := by
  rw [wordReaches_iff_aligned, inWindow_iff]

/-! ## Word reads (O34) -/

/-- A read that reaches memory answers the four bytes at the mapped offset, big-endian. -/
theorem State.readWord_of_reaches (s : State) (a : Word) (h : wordReaches s.cfg a = true) :
    s.readWord a = bigEndianAt s (offset s.cfg a) := by
  rw [State.readWord, if_pos h, wordOfBytes]

/-- Settles O34: `readWord` where the access reaches memory, and where it does not. -/
theorem readWordAnswersBigEndianOrZero : Obligations.ReadWordAnswersBigEndianOrZero := by
  intro s a
  have hread : perform (.readWord a) s = some (.word (s.readWord a), s) := rfl
  split
  · rename_i h
    rw [hread, State.readWord_of_reaches s a ((wordReaches_iff_offset s.cfg a).mpr h), offset]
  · rename_i h
    have hno := Bool.eq_false_iff.mpr (mt (wordReaches_iff_offset s.cfg a).mp h)
    rw [hread, State.readWord_of_not_reaches s a hno]

/-! ## Word writes (O35) -/

/-- What a byte reads as after four bytes are copied to consecutive offsets. -/
theorem Memory.get_copy_four (m : Memory) (k o : Nat) (b0 b1 b2 b3 : Byte) (h : m.wf = true) :
    (m.copy k [b0, b1, b2, b3]).get o =
      if o = k then b0 else if o = k + 1 then b1 else if o = k + 2 then b2 else if o = k + 3 then b3
      else m.get o := by
  rw [Memory.get_copy _ _ _ _ h]
  split
  · rename_i hin
    obtain ⟨hlo, hhi⟩ := hin
    obtain ⟨j, rfl⟩ := Nat.exists_eq_add_of_le hlo
    have hj : j < 4 := by simpa using hhi
    match j, hj with
    | 0, _ | 1, _ | 2, _ | 3, _ => simp
  · rename_i hout
    have hout' : ¬ (k ≤ o ∧ o < k + 4) := hout
    rw [if_neg (by omega), if_neg (by omega), if_neg (by omega), if_neg (by omega)]

/-- A byte of `v mod 2^32` is that byte of `v`, whatever the width of `v` (R39). -/
theorem extractByte_ofNat (v n : Nat) (hn : n + 8 ≤ 32) :
    (BitVec.ofNat 32 v).extractLsb' n 8 = BitVec.ofNat 8 (v / 2 ^ n) := by
  refine BitVec.eq_of_getLsbD_eq fun i hi => ?_
  have hlt : n + i < 32 := by omega
  rw [BitVec.getLsbD_extractLsb', BitVec.getLsbD_ofNat, BitVec.getLsbD_ofNat, Nat.testBit_div_two_pow,
    Nat.add_comm i n]
  simp [hi, hlt]

/-- The four bytes of a word, put together again, are the word (R41). -/
theorem wordOfBytes_extract (w : Word) :
    wordOfBytes (w.extractLsb' 24 8) (w.extractLsb' 16 8) (w.extractLsb' 8 8) (w.extractLsb' 0 8) = w := by
  refine BitVec.eq_of_getLsbD_eq fun i hi => ?_
  simp only [wordOfBytes, BitVec.getLsbD_append, BitVec.getLsbD_extractLsb']
  interval_cases i <;> simp

section WriteThatReaches

variable (s : State) (a : Word) (v : Nat) (hmem : Memory.wf s.mem = true) (h : wordReaches s.cfg a = true)

include h in
/-- A write that reaches memory changes no other field. -/
theorem State.writeWord_of_reaches :
    s.writeWord a v =
      { s with mem := Memory.copy s.mem (offset s.cfg a) (bytesOfWord (BitVec.ofNat 32 v)) } :=
  if_pos h

include hmem h

/-- What a byte reads as after a word write that reaches memory: at the mapped offset on, the bytes of the word
from the most significant one on. -/
theorem State.byteAt_writeWord (o : Nat) :
    (s.writeWord a v).byteAt o =
      if o = offset s.cfg a then (BitVec.ofNat 32 v).extractLsb' 24 8
      else if o = offset s.cfg a + 1 then (BitVec.ofNat 32 v).extractLsb' 16 8
      else if o = offset s.cfg a + 2 then (BitVec.ofNat 32 v).extractLsb' 8 8
      else if o = offset s.cfg a + 3 then (BitVec.ofNat 32 v).extractLsb' 0 8
      else s.byteAt o := by
  rw [State.writeWord_of_reaches s a v h]
  exact Memory.get_copy_four _ _ o _ _ _ _ hmem

/-- A word write that reaches memory reads back, modulo `2^32`. -/
theorem State.readWord_writeWord : (s.writeWord a v).readWord a = BitVec.ofNat 32 v := by
  rw [State.readWord_of_reaches _ a (by rwa [State.writeWord_cfg]), State.writeWord_cfg]
  simpa [bigEndianAt, State.byteAt_writeWord s a v hmem h, wordOfBytes] using wordOfBytes_extract (BitVec.ofNat 32 v)

end WriteThatReaches

/-- Settles O35: where the write reaches memory it reads back and each byte is as `State.byteAt_writeWord` says;
elsewhere the write is none. -/
theorem writeWordStoresBigEndian : Obligations.WriteWordStoresBigEndian := by
  intro s a v hmem
  split
  · rename_i hin
    have h := (wordReaches_iff_address s.cfg a).mpr hin
    refine ⟨State.readWord_writeWord s a v hmem h, fun o => ?_, ?_⟩
    · rw [State.byteAt_writeWord s a v hmem h, extractByte_ofNat v 24 (by decide),
        extractByte_ofNat v 16 (by decide), extractByte_ofNat v 8 (by decide), extractByte_ofNat v 0 (by decide),
        Nat.pow_zero, Nat.div_one]
      rfl
    · rw [State.writeWord_of_reaches s a v h]
  · rename_i hout
    exact State.writeWord_of_not_reaches s a v
      (Bool.eq_false_iff.mpr (mt (wordReaches_iff_address s.cfg a).mp hout))

/-! ## Steps outside the window (O27) -/

/-- Without strict mode a Running core runs the word that `readWord` answers at `pc` (R57). -/
theorem step_of_silent {s : State} (hrun : s.run = .running) (hsilent : s.cfg.strictMode = false) :
    step s = runWord (s.readWord s.pc) s := by
  simp [step, State.fetch, hrun, hsilent]

/-- An address outside the window reads as the zero word. -/
theorem State.readWord_of_outside {s : State} {a : Word} (h : ¬ InWindow s.cfg a) : s.readWord a = 0#32 :=
  State.readWord_of_not_reaches s a
    (Bool.eq_false_iff.mpr fun hr => h ((wordReaches_iff_address s.cfg a).mp hr).1)

/-- From a `pc` outside the window the step runs the zero word, which is Unrecognized: it only retires (R83). -/
theorem step_of_outside {s : State} (hrun : s.run = .running) (hsilent : s.cfg.strictMode = false)
    (hout : ¬ InWindow s.cfg s.pc) : step s = .next s.retire := by
  have hdecode : decode 0#32 = .unrecognized := by decide
  rw [step_of_silent hrun hsilent, State.readWord_of_outside hout]
  simp [runWord, hdecode, execUnrecognized, hsilent]

/-- Four bytes on and then `4 * j` more. -/
theorem add_four_add_ofNat (pc : Word) (j : Nat) :
    pc + 4#32 + BitVec.ofNat 32 (4 * j) = pc + BitVec.ofNat 32 (4 * (j + 1)) := by
  rw [BitVec.add_assoc, ← BitVec.ofNat_add, Nat.mul_succ, Nat.add_comm]

/-- Settles O27, by induction on the number of steps: the first one retires, and the rest walk from `pc + 4`. -/
theorem coreWalksForwardOutsideTheWindow : Obligations.CoreWalksForwardOutsideTheWindow := by
  intro k
  induction k with
  | zero =>
    intro s _ _ _ _
    simp [Host.Core.run]
  | succ k ih =>
    intro s hquiet hrun hsilent hout
    have hpc : ¬ InWindow s.cfg s.pc := by simpa using hout 0 k.succ_pos
    have hstep : step s = .next { s with pc := s.pc + 4#32 } := by
      rw [step_of_outside hrun hsilent hpc, State.retire_of_quiet s hquiet]
    have hrest : ∀ j, j < k → ¬ InWindow s.cfg (s.pc + 4#32 + BitVec.ofNat 32 (4 * j)) := fun j hj => by
      rw [add_four_add_ofNat]
      exact hout (j + 1) (Nat.succ_lt_succ hj)
    rw [core_run_succ k hstep, ih { s with pc := s.pc + 4#32 } hquiet hrun hsilent hrest, add_four_add_ofNat]

end Sys2Proof.Machine
end

section
/-! PROOF. The statements about the operand forms and the step (30_encoding.md), O23 and O24, and the rules they rest
on: each setting of the logical immediate in terms of `immSigned` and of the zero extension, the jump target as its
bits, and what a fetched word does. -/

namespace Sys2Proof.Machine

open Sys2Proof.Claims

/-! ## Immediates and the jump target (O23) -/

@[simp] theorem toInt_immSigned (imm : BitVec 16) : (immSigned imm).toInt = imm.toInt :=
  BitVec.toInt_signExtend_of_le (by decide)

theorem immLogical_of_sign {c : Config} (h : c.logicalImmExt = .sign) (imm : BitVec 16) :
    immLogical c imm = immSigned imm := by
  simp [immLogical, immSigned, h]

theorem immLogical_of_zero {c : Config} (h : c.logicalImmExt = .zero) (imm : BitVec 16) :
    immLogical c imm = imm.zeroExtend 32 := by
  simp [immLogical, h]

/-- The two extensions of an immediate agree exactly where its bit 15 is clear: the one has the signed value of the
field, the other the unsigned value, and these are equal below `2^15` alone (R76, D8). -/
theorem immSigned_eq_zeroExtend_iff (imm : BitVec 16) :
    immSigned imm = imm.zeroExtend 32 ↔ imm.toNat < 2 ^ 15 := by
  have hnat : (imm.zeroExtend 32).toNat = imm.toNat := BitVec.toNat_setWidth_of_le (by decide)
  have hzero : (imm.zeroExtend 32).toInt = imm.toNat := by
    rw [BitVec.toInt_eq_toNat_of_lt (by omega), hnat]
  rw [← BitVec.toInt_inj, toInt_immSigned, hzero, BitVec.toInt_eq_toNat_cond]
  split <;> omega

/-- The bits of the mask that keeps the top 4 bits of `pc` (R63). -/
theorem getLsbD_pageMask {i : Nat} (h : i < 32) : (0xF0000000#32).getLsbD i = decide (28 ≤ i) := by
  interval_cases i <;> rfl

/-- The jump target, bit by bit: bits 1:0 are 0, bits 27:2 are `target` and bits 31:28 those of `pc` (R63). -/
theorem jumpTarget_eq_targetBits (pc : Word) (target : BitVec 26) : jumpTarget pc target = targetBits pc target := by
  refine BitVec.eq_of_getLsbD_eq fun i hi => ?_
  simp only [jumpTarget, BitVec.getLsbD_or, BitVec.getLsbD_and, getLsbD_pageMask hi, BitVec.getLsbD_shiftLeft,
    BitVec.getLsbD_setWidth, BitVec.getLsbD_append, BitVec.getLsbD_extractLsb']
  interval_cases i <;> simp

/-- Settles O23: the two extensions, and the jump target as its bits. -/
theorem immediatesAndTargets : Obligations.ImmediatesAndTargets := by
  refine ⟨toInt_immSigned, fun c imm hsign => ?_, fun c imm hzero => ?_, fun c d imm hsign hzero => ?_,
    fun pc target => ⟨jumpTarget_eq_targetBits pc target, jumpTarget_aligned pc target⟩⟩
  · rw [immLogical_of_sign hsign, toInt_immSigned]
  · rw [immLogical_of_zero hzero]
    exact BitVec.toNat_setWidth_of_le (by decide)
  · rw [immLogical_of_sign hsign, immLogical_of_zero hzero, immSigned_eq_zeroExtend_iff]

/-! ## The step (O24) -/

/-- The word that a fetch outside the window yields is no instruction (R86). -/
theorem decode_zero_word : decode 0#32 = .unrecognized := by decide

theorem step_of_halted {s : State} (h : s.run = .halted) : step s = .next s := by
  simp [step, h]

theorem runWord_of_recognized {w : Word} {i : Instr} (h : decode w = .recognized i) (s : State) :
    runWord w s = exec i s := by
  simp [runWord, h]

theorem runWord_of_unrecognized {w : Word} (h : decode w = .unrecognized) {s : State}
    (hsilent : s.cfg.strictMode = false) : runWord w s = .next s.retire := by
  simp [runWord, execUnrecognized, h, hsilent]

/-- Settles O24: without strict mode a Running step is `runWord` of the word at `pc`, and outside the window that
word is the zero word. -/
theorem stepRunsTheDecodedInstruction : Obligations.StepRunsTheDecodedInstruction := by
  intro s
  refine ⟨step_of_halted, fun i hrun hsilent hword => ?_, fun hrun hsilent hword => ?_, fun hout => ?_⟩
  · rw [step_of_silent hrun hsilent, runWord_of_recognized hword]
  · rw [step_of_silent hrun hsilent, runWord_of_unrecognized hword hsilent]
  · have hzero := State.readWord_of_outside hout
    exact ⟨hzero, hzero ▸ decode_zero_word⟩

end Sys2Proof.Machine
end

section
/-! PROOF. The statements about the register-register instructions (40_alu_register.md), O1 to O4, and the rules they
rest on: what an instruction that ends in one register write changes and leaves, how each of the four ends, and the
results of the ALU in the words of the statements. -/

namespace Sys2Proof.Machine

open Sys2Proof.Claims

/-! ## The end of an instruction that writes one register -/

/-- With no transfer pending, the whole effect of `State.finish`: the register written, `pc + 4`, and the frame. -/
theorem State.finish_effect {s : State} (h : s.Quiet) (r : RegNum) (v : Word) :
    ∃ t, s.finish r v = .next t ∧ RegWritten s t r v ∧ t.pc = s.pc + 4#32 ∧ RestKept s t := by
  refine ⟨{ s.writeReg r v with pc := s.pc + 4#32 }, s.finish_of_quiet h r v, ?_, rfl, ?_⟩
  · exact fun q => s.readReg_writeReg r q v
  · simp [RestKept, InertKept, BytesKept, State.byteAt]

/-! ## How the four instructions end -/

section Register

variable (rd rs rt : RegNum) (shamt : BitVec 5) (s : State)

theorem exec_add : exec (.add rd rs rt shamt) s = s.finish rd (aluAdd (s.readReg rs) (s.readReg rt)) := rfl

theorem exec_and : exec (.and rd rs rt shamt) s = s.finish rd (aluAnd (s.readReg rs) (s.readReg rt)) := rfl

theorem exec_or : exec (.or rd rs rt shamt) s = s.finish rd (aluOr (s.readReg rs) (s.readReg rt)) := rfl

theorem exec_slt : exec (.slt rd rs rt shamt) s = s.finish rd (aluSlt (s.readReg rs) (s.readReg rt)) := rfl

end Register

/-! ## The results of the ALU (R70) -/

section Alu

variable (a b : Word)

/-- The sum of the two unsigned values modulo `2^32` (R71, D5). -/
theorem aluAdd_eq_ofNat : aluAdd a b = BitVec.ofNat 32 (a.toNat + b.toNat) := BitVec.add_def a b

theorem aluAnd_eq : aluAnd a b = a &&& b := rfl

theorem aluOr_eq : aluOr a b = a ||| b := rfl

theorem aluSlt_eq : aluSlt a b = if a.toInt < b.toInt then 1#32 else 0#32 := rfl

end Alu

/-! ## The four instructions (O1 to O4) -/

/-- Settles O1: ADD ends in one register write, of the sum modulo `2^32`. -/
theorem addWritesWrappedSum : Obligations.AddWritesWrappedSum := by
  intro s rd rs rt shamt hquiet
  rw [exec_add, aluAdd_eq_ofNat]
  exact State.finish_effect hquiet rd _

/-- Settles O2: AND ends in one register write, of the bitwise AND. -/
theorem andWritesBitwiseAnd : Obligations.AndWritesBitwiseAnd := by
  intro s rd rs rt shamt hquiet
  rw [exec_and, aluAnd_eq]
  exact State.finish_effect hquiet rd _

/-- Settles O3: OR ends in one register write, of the bitwise OR. -/
theorem orWritesBitwiseOr : Obligations.OrWritesBitwiseOr := by
  intro s rd rs rt shamt hquiet
  rw [exec_or, aluOr_eq]
  exact State.finish_effect hquiet rd _

/-- Settles O4: SLT ends in one register write, of the signed comparison. -/
theorem sltWritesSignedComparison : Obligations.SltWritesSignedComparison := by
  intro s rd rs rt shamt hquiet
  rw [exec_slt, aluSlt_eq]
  exact State.finish_effect hquiet rd _

end Sys2Proof.Machine
end

section
/-! PROOF. The statements about the immediate ALU instructions (41_alu_immediate.md), O5 to O7, and the rules they
rest on: how each of the three ends, and the two immediate operands in the words of the statements. That one register
write is the whole effect is `State.finish_effect`. -/

namespace Sys2Proof.Machine

open Sys2Proof.Claims

/-! ## How the three instructions end -/

section Immediate

variable (rt rs : RegNum) (imm : BitVec 16) (s : State)

theorem exec_addi : exec (.addi rt rs imm) s = s.finish rt (aluAdd (s.readReg rs) (immSigned imm)) := rfl

theorem exec_andi : exec (.andi rt rs imm) s = s.finish rt (aluAnd (s.readReg rs) (immLogical s.cfg imm)) := rfl

theorem exec_ori : exec (.ori rt rs imm) s = s.finish rt (aluOr (s.readReg rs) (immLogical s.cfg imm)) := rfl

end Immediate

/-! ## The immediate operands (R63) -/

/-- The 32-bit sum with a signed immediate is the pattern of the sum of the two signed values (R75, D5): both have
that value modulo `2^32`. -/
theorem aluAdd_immSigned (a : Word) (imm : BitVec 16) :
    aluAdd a (immSigned imm) = BitVec.ofInt 32 (a.toInt + imm.toInt) := by
  rw [BitVec.ofInt_add, BitVec.ofInt_toInt]
  rfl

/-- A logical immediate in either setting of `LOGICAL_IMM_EXT` (D8). -/
theorem immLogical_eq_extendedImm (c : Config) (imm : BitVec 16) :
    immLogical c imm = extendedImm c.logicalImmExt imm := by
  cases h : c.logicalImmExt with
  | sign =>
    rw [immLogical_of_sign h]
    rfl
  | zero =>
    rw [immLogical_of_zero h]
    exact (BitVec.ofNat_toNat 32 imm).symm

/-! ## The three instructions (O5 to O7) -/

/-- Settles O5: ADDI ends in one register write, of the wrapped signed sum. -/
theorem addiWritesWrappedSum : Obligations.AddiWritesWrappedSum := by
  intro s rt rs imm hquiet
  rw [exec_addi, aluAdd_immSigned]
  exact State.finish_effect hquiet rt _

/-- Settles O6: ANDI ends in one register write, of the AND with the extended immediate. -/
theorem andiWritesAndWithExtendedImmediate : Obligations.AndiWritesAndWithExtendedImmediate := by
  intro s rt rs imm hquiet
  rw [exec_andi, aluAnd_eq, immLogical_eq_extendedImm]
  exact State.finish_effect hquiet rt _

/-- Settles O7: ORI ends in one register write, of the OR with the extended immediate. -/
theorem oriWritesOrWithExtendedImmediate : Obligations.OriWritesOrWithExtendedImmediate := by
  intro s rt rs imm hquiet
  rw [exec_ori, aluOr_eq, immLogical_eq_extendedImm]
  exact State.finish_effect hquiet rt _

end Sys2Proof.Machine
end

section
/-! PROOF. The statements about LW (42_load_store.md), O8 and O9, and the rules they rest on: the effective address
in the words of the statements, what a load does in each place an effective address can have, and Retire alone as the
whole effect. That one register write is the whole effect is `State.finish_effect`. -/

namespace Sys2Proof.Machine

open Sys2Proof.Claims

/-! ## The effective address (R78) -/

/-- LW loads at the pattern of the sum of the base and the offset as signed values (the wrap: D12). -/
theorem exec_lw (rt rs : RegNum) (imm : BitVec 16) (s : State) :
    exec (.lw rt rs imm) s = s.loadInto rt (BitVec.ofInt 32 ((s.readReg rs).toInt + imm.toInt)) :=
  congrArg (s.loadInto rt) (aluAdd_immSigned (s.readReg rs) imm)

/-! ## The load by window, alignment and mode (R78, R96, D10) -/

section Load

variable {s : State} (rt : RegNum) {ea : Word}

theorem State.loadInto_of_outside (hout : ¬ InWindow s.cfg ea) :
    s.loadInto rt ea =
      if s.cfg.strictMode then .next (s.takeFault (.loadOutOfRange s.pc ea)) else .next s.retire := by
  have hin : inWindow s.cfg ea = false := Bool.eq_false_iff.mpr (mt (inWindow_iff s.cfg ea).mp hout)
  simp [State.loadInto, hin]

theorem State.loadInto_of_misaligned (hin : InWindow s.cfg ea) (hmis : ea.toNat % 4 ≠ 0) :
    s.loadInto rt ea =
      if s.cfg.strictMode then .next (s.takeFault (.loadMisaligned s.pc ea)) else s.finish rt 0#32 := by
  have hno : wordReaches s.cfg ea = false :=
    Bool.eq_false_iff.mpr fun hr => hmis ((wordReaches_iff_address s.cfg ea).mp hr).2
  simp [State.loadInto, (inWindow_iff s.cfg ea).mpr hin, hno, State.readWord_of_not_reaches s ea hno]

/-- In the window and aligned, the load is the same in either mode. -/
theorem State.loadInto_of_aligned (hin : InWindow s.cfg ea) (halign : ea.toNat % 4 = 0) :
    s.loadInto rt ea = s.finish rt (bigEndianAt s (ea.toNat - s.cfg.memBase.toNat)) := by
  have hreach : wordReaches s.cfg ea = true := (wordReaches_iff_address s.cfg ea).mpr ⟨hin, halign⟩
  simp [State.loadInto, (inWindow_iff s.cfg ea).mpr hin, hreach, State.readWord_of_reaches s ea hreach, offset]

end Load

/-- With no transfer pending, the whole effect of Retire alone: the registers kept, `pc + 4`, and the frame. -/
theorem State.retire_effect {s : State} (h : s.Quiet) :
    RegsKept s s.retire ∧ s.retire.pc = s.pc + 4#32 ∧ RestKept s s.retire := by
  rw [State.retire_of_quiet s h]
  exact ⟨fun _ => rfl, rfl, ⟨rfl, rfl, rfl, rfl, rfl, rfl, fun _ => rfl⟩, rfl, rfl, rfl, rfl⟩

/-- With no transfer pending, the whole effect of a load that reaches memory, in either mode. -/
theorem State.loadInto_effect_of_aligned {s : State} (h : s.Quiet) (rt : RegNum) {ea : Word}
    (hin : InWindow s.cfg ea) (halign : ea.toNat % 4 = 0) :
    ∃ t, s.loadInto rt ea = .next t ∧ t.pc = s.pc + 4#32 ∧ RestKept s t ∧
      RegWritten s t rt (bigEndianAt s (ea.toNat - s.cfg.memBase.toNat)) := by
  rw [State.loadInto_of_aligned rt hin halign]
  obtain ⟨t, hfinish, hreg, hpc, hrest⟩ := State.finish_effect h rt (bigEndianAt s (ea.toNat - s.cfg.memBase.toNat))
  exact ⟨t, hfinish, hpc, hrest, hreg⟩

/-! ## The two modes (O8 and O9) -/

/-- Settles O8: outside the window LW only retires, and in it LW ends in one register write, of 0 where misaligned. -/
theorem lwLoadsByWindowAndAlignment : Obligations.LwLoadsByWindowAndAlignment := by
  intro s rt rs imm hquiet hsilent
  rw [exec_lw]
  generalize BitVec.ofInt 32 ((s.readReg rs).toInt + imm.toInt) = ea
  by_cases hin : InWindow s.cfg ea
  · by_cases halign : ea.toNat % 4 = 0
    · obtain ⟨t, hload, hpc, hrest, hreg⟩ := State.loadInto_effect_of_aligned hquiet rt hin halign
      refine ⟨t, hload, hpc, hrest, ?_⟩
      rwa [if_neg (not_not_intro hin), if_neg (not_not_intro halign)]
    · obtain ⟨t, hfinish, hreg, hpc, hrest⟩ := State.finish_effect hquiet rt 0#32
      refine ⟨t, ?_, hpc, hrest, ?_⟩
      · rwa [State.loadInto_of_misaligned rt hin halign, hsilent]
      · rwa [if_neg (not_not_intro hin), if_pos halign]
  · obtain ⟨hregs, hpc, hrest⟩ := State.retire_effect hquiet
    refine ⟨s.retire, ?_, hpc, hrest, ?_⟩
    · rw [State.loadInto_of_outside rt hin, hsilent]
      rfl
    · rwa [if_pos hin]

/-- Settles O9: outside the window and where misaligned the load takes its fault, and elsewhere it is one register
write as without strict mode. -/
theorem strictLwFaultsOrLoads : Obligations.StrictLwFaultsOrLoads := by
  intro s rt rs imm hquiet hstrict
  rw [exec_lw]
  generalize BitVec.ofInt 32 ((s.readReg rs).toInt + imm.toInt) = ea
  by_cases hin : InWindow s.cfg ea
  · by_cases halign : ea.toNat % 4 = 0
    · rw [if_neg (not_not_intro hin), if_neg (not_not_intro halign)]
      exact State.loadInto_effect_of_aligned hquiet rt hin halign
    · rw [if_neg (not_not_intro hin), if_pos halign, State.loadInto_of_misaligned rt hin halign, if_pos hstrict]
      rfl
  · rw [if_pos hin, State.loadInto_of_outside rt hin, if_pos hstrict]
    rfl

end Sys2Proof.Machine
end

section
/-! PROOF. The statements about control transfer (43_control_transfer.md), O10, O11, O16 and O25, and the rules they
rest on: when a transfer is pending in each setting of `ZERO_TARGET_IS_NO_TRANSFER`, the state that J and JAL leave,
and which word a Running core runs. -/

namespace Sys2Proof.Machine

open Sys2Proof.Claims

/-! ## Retire (O16) -/

section Retire

variable {s : State}

/-- Where a zero target is no transfer, the target alone tells whether one is pending (R82, D13). -/
theorem State.transferPending_of_bit_unused (h : s.cfg.zeroTargetIsNoTransfer = true) :
    s.transferPending = true ↔ s.nextPc ≠ 0#32 := by
  simp [State.transferPending, h]

/-- Where a zero target is a transfer, the pending bit alone tells whether one is pending (R82, D13). -/
theorem State.transferPending_of_bit_kept (h : s.cfg.zeroTargetIsNoTransfer = false) :
    s.transferPending = s.pending := by
  simp [State.transferPending, h]

end Retire

/-- Settles O16: in each setting Retire takes the transfer that the setting says is pending, and clears what the
setting keeps of it. -/
theorem retireTakesPendingTransferOrAdvances : Obligations.RetireTakesPendingTransferOrAdvances := by
  intro s
  refine ⟨fun hunused => ?_, fun hkept => ?_⟩
  · simp only [State.retire, State.transferPending_of_bit_unused hunused, hunused, if_true]
  · simp only [State.retire, State.transferPending_of_bit_kept hkept, hkept, Bool.false_eq_true, if_false]

/-! ## The state a jump leaves (O10 and O11) -/

section Jump

variable (s : State) (target : BitVec 26)

theorem exec_j : exec (.j target) s = .next (s.setTransfer (jumpTarget s.pc target)).retire := rfl

theorem exec_jal :
    exec (.jal target) s =
      .next ((s.writeReg 31#5 (s.pc + 8#32)).setTransfer (jumpTarget s.pc target)).retire := rfl

variable {s}

/-- With no transfer pending, a jump set and retired in one step only moves `pc` (R82, R84). -/
theorem State.retire_setTransfer_jumpTarget (h : s.Quiet) :
    (s.setTransfer (jumpTarget s.pc target)).retire = { s with pc := pcAfterJump s.cfg s.pc target } := by
  rw [State.retire_setTransfer s _ h, jumpTarget_eq_targetBits]

theorem exec_j_of_quiet (h : s.Quiet) :
    exec (.j target) s = .next { s with pc := pcAfterJump s.cfg s.pc target } := by
  rw [exec_j, State.retire_setTransfer_jumpTarget target h]

/-- JAL is J and then the write of the link, which is counted from the address of the jump (R81). -/
theorem exec_jal_of_quiet (h : s.Quiet) :
    exec (.jal target) s =
      .next ({ s with pc := pcAfterJump s.cfg s.pc target }.writeReg 31#5 (s.pc + 8#32)) := by
  rw [exec_jal, State.setTransfer_writeReg, State.retire_writeReg, State.retire_setTransfer_jumpTarget target h]

end Jump

/-- Settles O10: J only moves `pc`. -/
theorem jTransfersToTarget : Obligations.JTransfersToTarget := by
  intro s target hquiet
  refine ⟨_, exec_j_of_quiet target hquiet, rfl, fun _ => rfl, ?_⟩
  exact ⟨⟨rfl, rfl, rfl, rfl, rfl, rfl, fun _ => rfl⟩, rfl, rfl, rfl, rfl⟩

/-- Settles O11: JAL writes the link and moves `pc`. -/
theorem jalLinksAndTransfers : Obligations.JalLinksAndTransfers := by
  intro s target hquiet
  refine ⟨_, exec_jal_of_quiet target hquiet, State.writeReg_pc .., fun q => State.readReg_writeReg _ 31#5 q _, ?_⟩
  simp [RestKept, InertKept, BytesKept, State.byteAt]

/-! ## The step at a jump and the step after it (O25) -/

section Fetch

variable {s : State}

/-- A fetch answers the word at `pc`, unless strict mode takes the fault of code 1 (R57, R96). -/
theorem State.fetch_of_reaches (h : s.cfg.strictMode = false ∨ wordReaches s.cfg s.pc = true) :
    s.fetch = .ok (s.readWord s.pc) := by
  rcases h with h | h <;> simp [State.fetch, h]

theorem step_of_fetch {w : Word} (hrun : s.run = .running) (hfetch : s.fetch = .ok w) : step s = runWord w s := by
  simp [step, hrun, hfetch]

/-- An instruction can be read only where a word access reaches memory: elsewhere the zero word is read. -/
theorem State.wordReaches_of_recognized {a : Word} {i : Instr} (h : decode (s.readWord a) = .recognized i) :
    wordReaches s.cfg a = true := by
  by_contra hno
  rw [State.readWord_of_not_reaches s a (Bool.eq_false_iff.mpr hno), decode_zero_word] at h
  cases h

/-- In either mode a Running core executes the instruction at `pc`. -/
theorem step_of_recognized {i : Instr} (hrun : s.run = .running) (h : decode (s.readWord s.pc) = .recognized i) :
    step s = exec i s := by
  rw [step_of_fetch hrun (State.fetch_of_reaches (.inr (State.wordReaches_of_recognized h))),
    runWord_of_recognized h]

end Fetch

/-- A word reads the same where the configuration and every byte are as before. -/
theorem State.readWord_of_inertKept {s t : State} (h : InertKept s t) (a : Word) : t.readWord a = s.readWord a := by
  obtain ⟨hcfg, -, -, -, -, -, hbytes⟩ := h
  simp only [State.readWord, hcfg, hbytes _]

/-- A jump target in the window is one that a fetch reaches, since it is a multiple of 4 (R83). -/
theorem wordReaches_targetBits {c : Config} {pc : Word} {target : BitVec 26} (h : InWindow c (targetBits pc target)) :
    wordReaches c (targetBits pc target) = true :=
  (wordReaches_iff_address c _).mpr ⟨h, jumpTarget_eq_targetBits pc target ▸ jumpTarget_aligned pc target⟩

/-- The step at a J or JAL moves `pc` as the jump does, and of the rest changes only registers. -/
theorem step_at_jump {s : State} {target : BitVec 26} (hquiet : s.Quiet) (hrun : s.run = .running)
    (hword : decode (s.readWord s.pc) = .recognized (.j target) ∨
      decode (s.readWord s.pc) = .recognized (.jal target)) :
    ∃ t, step s = .next t ∧ t.pc = pcAfterJump s.cfg s.pc target ∧ RestKept s t := by
  rcases hword with hj | hjal
  · obtain ⟨t, hexec, hpc, -, hrest⟩ := jTransfersToTarget s target hquiet
    exact ⟨t, (step_of_recognized hrun hj).trans hexec, hpc, hrest⟩
  · obtain ⟨t, hexec, hpc, -, hrest⟩ := jalLinksAndTransfers s target hquiet
    exact ⟨t, (step_of_recognized hrun hjal).trans hexec, hpc, hrest⟩

/-- Settles O25: the jump leaves `pc` at the target and memory as it was, so the next fetch reads the target's word. -/
theorem jumpTakesEffectOnTheNextStep : Obligations.JumpTakesEffectOnTheNextStep := by
  intro s target hquiet hrun hword htaken
  obtain ⟨t, hstep, hpc, hinert, -, -, hkeep, -⟩ := step_at_jump hquiet hrun hword
  have htarget : t.pc = targetBits s.pc target := hpc.trans (if_neg htaken)
  have hrunning : t.run = .running := hkeep.trans hrun
  have hcfg : t.cfg = s.cfg := hinert.1
  refine ⟨t, hstep, htarget, hrunning, fun hreach => ?_⟩
  have hfetch : t.fetch = .ok (s.readWord (targetBits s.pc target)) := by
    rw [← State.readWord_of_inertKept hinert, ← htarget]
    refine State.fetch_of_reaches ?_
    rw [hcfg, htarget]
    exact hreach.imp_right wordReaches_targetBits
  exact ⟨hfetch, step_of_fetch hrunning hfetch⟩

end Sys2Proof.Machine
end

section
/-! PROOF. The statements about the system group and Unrecognized words (44_system_and_unrecognized.md), O12, O15 and
O20, and the rules they rest on: which words each family of the decoder leaves Unrecognized, and that replacing `hi`,
`lo`, `cr` and `ll` commutes with every operation of a step. -/

namespace Sys2Proof.Machine

open Sys2Proof.Claims

/-! ## Unrecognized words (O12 and O20) -/

/-- Settles O12: without strict mode the step on an Unrecognized word is Retire alone. -/
theorem unrecognizedIsSilentNoOp : Obligations.UnrecognizedIsSilentNoOp := by
  intro s hquiet hrun hsilent hword
  have hstep : step s = .next s.retire :=
    (step_of_silent hrun hsilent).trans (runWord_of_unrecognized hword hsilent)
  obtain ⟨hregs, hpc, hrest⟩ := State.retire_effect hquiet
  exact ⟨s.retire, hstep, hpc, hregs, hrest⟩

section Decoder

variable (w : Word)

/-- The R-family leaves exactly the words of another function than its four (R59). -/
theorem decodeR_eq_unrecognized_iff :
    decodeR w = .unrecognized ↔ fieldFunct w ∉ [functAdd, functAnd, functOr, functSlt] := by
  unfold decodeR
  split_ifs <;> simp [*]

/-- The I-family leaves exactly the words of another opcode than its four (R60). -/
theorem decodeI_eq_unrecognized_iff :
    decodeI w = .unrecognized ↔ fieldOp w ∉ [opAddi, opAndi, opOri, opLw] := by
  unfold decodeI
  split_ifs <;> simp [*]

/-- An Unrecognized word is one that its own family leaves; the J-family leaves none (R58, R61). -/
theorem decode_eq_unrecognized_iff :
    decode w = .unrecognized ↔
      (fieldOp w = opRFamily ∧ decodeR w = .unrecognized) ∨
        (fieldOp w ∉ [opRFamily, opJ, opJal] ∧ decodeI w = .unrecognized) := by
  unfold decode
  split_ifs with hR hJ hJal
  · simp [hR]
  · simp [hJ, opJ, opRFamily]
  · simp [hJal, opJal, opRFamily]
  · simp [hR, hJ, hJal]

end Decoder

/-- Settles O20: the words that the R-family leaves, and those whose opcode is of no family. -/
theorem unrecognizedIsTheComplementOfTheTable : Obligations.UnrecognizedIsTheComplementOfTheTable := by
  intro w
  rw [decode_eq_unrecognized_iff, decodeR_eq_unrecognized_iff, decodeI_eq_unrecognized_iff, ← not_or,
    ← List.mem_append]
  rfl

/-! ## Registers that no step reads or writes (O15) -/

section Inert

variable (hi lo : Word) (cr : Vector Word 32) (ll : Bool) (s : State)

/-- Putting back the values a state has is no change. -/
theorem withInert_self : withInert s.hi s.lo s.cr s.ll s = s := rfl

@[simp] theorem withInert_cfg : (withInert hi lo cr ll s).cfg = s.cfg := rfl

@[simp] theorem withInert_pc : (withInert hi lo cr ll s).pc = s.pc := rfl

@[simp] theorem withInert_run : (withInert hi lo cr ll s).run = s.run := rfl

@[simp] theorem readReg_withInert (r : RegNum) : (withInert hi lo cr ll s).readReg r = s.readReg r := rfl

@[simp] theorem readWord_withInert (a : Word) : (withInert hi lo cr ll s).readWord a = s.readWord a := rfl

@[simp] theorem fetch_withInert : (withInert hi lo cr ll s).fetch = s.fetch := rfl

@[simp] theorem takeFault_withInert (f : StrictFault) :
    (withInert hi lo cr ll s).takeFault f = withInert hi lo cr ll (s.takeFault f) := rfl

@[simp] theorem setTransfer_withInert (t : Word) :
    (withInert hi lo cr ll s).setTransfer t = withInert hi lo cr ll (s.setTransfer t) := rfl

@[simp] theorem writeReg_withInert (r : RegNum) (v : Word) :
    (withInert hi lo cr ll s).writeReg r v = withInert hi lo cr ll (s.writeReg r v) := by
  unfold State.writeReg
  split <;> rfl

@[simp] theorem retire_withInert : (withInert hi lo cr ll s).retire = withInert hi lo cr ll s.retire := by
  have hpending : (withInert hi lo cr ll s).transferPending = s.transferPending := rfl
  unfold State.retire
  rw [hpending]
  split <;> rfl

theorem finish_withInert (r : RegNum) (v : Word) :
    (withInert hi lo cr ll s).finish r v = mapNext (withInert hi lo cr ll) (s.finish r v) := by
  simp [State.finish, mapNext]

theorem loadInto_withInert (rt : RegNum) (ea : Word) :
    (withInert hi lo cr ll s).loadInto rt ea = mapNext (withInert hi lo cr ll) (s.loadInto rt ea) := by
  unfold State.loadInto
  simp only [withInert_cfg, withInert_pc, readWord_withInert, takeFault_withInert, retire_withInert, finish_withInert]
  split <;> split <;> rfl

theorem exec_withInert (i : Instr) :
    exec i (withInert hi lo cr ll s) = mapNext (withInert hi lo cr ll) (exec i s) := by
  cases i with
  | lw rt rs imm => exact loadInto_withInert hi lo cr ll s rt (s.effectiveAddress rs imm)
  | j target | jal target => simp [exec, execJ, execJal, mapNext]
  | _ => exact finish_withInert hi lo cr ll s _ _

theorem execUnrecognized_withInert (w : Word) :
    execUnrecognized w (withInert hi lo cr ll s) = mapNext (withInert hi lo cr ll) (execUnrecognized w s) := by
  simp only [execUnrecognized, withInert_cfg, withInert_pc, takeFault_withInert, retire_withInert]
  split <;> rfl

theorem runWord_withInert (w : Word) :
    runWord w (withInert hi lo cr ll s) = mapNext (withInert hi lo cr ll) (runWord w s) := by
  unfold runWord
  split
  · exact exec_withInert hi lo cr ll s _
  · exact execUnrecognized_withInert hi lo cr ll s w

/-- Replacing the four registers commutes with a step (R88). -/
theorem step_withInert : step (withInert hi lo cr ll s) = mapNext (withInert hi lo cr ll) (step s) := by
  unfold step
  rw [withInert_run, fetch_withInert]
  split
  · rfl
  · split
    · rfl
    · exact runWord_withInert hi lo cr ll s _

end Inert

/-- A step leaves the four registers alone: replacing them by their own values, before or after it, is no change. -/
theorem withInert_of_step {s t : State} (h : step s = .next t) : withInert s.hi s.lo s.cr s.ll t = t := by
  have hcomm := step_withInert s.hi s.lo s.cr s.ll s
  rw [withInert_self, h] at hcomm
  exact (Host.Outcome.next.inj hcomm).symm

/-- Settles O15: replacing the four registers commutes with every operation of a step, and the frame is the case of
the values that the state has. -/
theorem inertRegistersHaveNoPartInAStep : Obligations.InertRegistersHaveNoPartInAStep := by
  intro s hi lo cr ll
  refine ⟨step_withInert hi lo cr ll s, fun t h => ?_⟩
  rw [← withInert_of_step h]
  exact ⟨rfl, rfl, rfl, rfl⟩

end Sys2Proof.Machine
end

section
/-! PROOF. The statements about exceptions (60_exceptions.md), O26 and O44, and the rules they rest on: the silent step
where the fetch reaches no memory, that every step without strict mode has a next state with `run`, `fault` and memory
kept, and which operation of the host answers which reply. -/

namespace Sys2Proof.Machine

open Sys2Proof.Claims

/-! ## No step stops the core without strict mode (O26) -/

section Silent

variable {s : State} (hsilent : s.cfg.strictMode = false)
include hsilent

/-- `step_of_outside` with a misaligned `pc` as well: the fetch reaches no memory, and the step is Retire alone. -/
theorem step_of_unreached_pc (hrun : s.run = .running) (hpc : ¬ InWindow s.cfg s.pc ∨ s.pc.toNat % 4 ≠ 0) :
    step s = .next s.retire := by
  have hno : wordReaches s.cfg s.pc = false :=
    Bool.eq_false_iff.mpr fun hreach =>
      have ⟨hin, halign⟩ := (wordReaches_iff_address s.cfg s.pc).mp hreach
      hpc.elim (· hin) (· halign)
  rw [step_of_silent hrun hsilent, State.readWord_of_not_reaches s s.pc hno,
    runWord_of_unrecognized decode_zero_word hsilent]

/-- Without strict mode no instruction takes a fault: it has a next state. -/
theorem exec_next_of_silent (i : Instr) : ∃ t, exec i s = .next t := by
  rcases exec_shape i s with ⟨r, v, h⟩ | ⟨r, v, target, h⟩ | ⟨hstrict, -⟩
  · exact ⟨_, h⟩
  · exact ⟨_, h⟩
  · exact absurd hsilent (ne_false_of_eq_true hstrict)

/-- Without strict mode every step, from either lifecycle state, has a next state with `run`, `fault` and memory as
before. -/
theorem step_next_of_silent : ∃ t, step s = .next t ∧ t.run = s.run ∧ t.fault = s.fault ∧ BytesKept s t := by
  rcases step_shape s with ⟨-, h⟩ | ⟨-, hstrict, -⟩ | ⟨-, h⟩ | ⟨-, i, -, h⟩
  · exact ⟨s, h, rfl, rfl, fun _ => rfl⟩
  · exact absurd hsilent (ne_false_of_eq_true hstrict)
  · exact ⟨s.retire, h, s.retire_run, s.retire_fault, s.byteAt_retire⟩
  · obtain ⟨t, hexec⟩ := exec_next_of_silent hsilent i
    obtain ⟨-, ⟨-, -, -, -, -, -, hbytes⟩, hstop, -⟩ := instructionFrame i s t hexec
    obtain ⟨hrun, hfault⟩ := hstop (.inr hsilent)
    exact ⟨t, h.trans hexec, hrun, hfault, hbytes⟩

end Silent

/-- Settles O26: no shape of a silent step stops the core, and where the fetch reaches no memory it is Retire alone. -/
theorem silentModeNeverStops : Obligations.SilentModeNeverStops := by
  intro s hsilent
  obtain ⟨t, hstep, hrun, hfault, hbytes⟩ := step_next_of_silent hsilent
  refine ⟨t, hstep, hrun, hfault, hbytes, fun hquiet hrunning hpc => ?_⟩
  cases hstep.symm.trans (step_of_unreached_pc hsilent hrunning hpc)
  obtain ⟨hregs, hnext, hrest⟩ := State.retire_effect hquiet
  exact ⟨hnext, hregs, hrest⟩

/-! ## The replies of the host operations (R47, R48, R106, R109) -/

section Replies

variable {s t : State} {r : Reply}

/-- A step as an operation answers `success` where it has a move. -/
theorem State.stepOp_eq_some_iff : s.stepOp = some (r, t) ↔ r = .success ∧ step s = .next t := by
  cases hstep : step s <;> simp [State.stepOp, hstep, eq_comm]

theorem State.whileHalted_eq_some_iff {p q : Reply × State} :
    s.whileHalted p = some q ↔ s.run ≠ .running ∧ p = q := by
  simp [State.whileHalted]

theorem State.hostLoadImage_nil : s.hostLoadImage [] = (.imageTooSmall, s) := rfl

theorem State.hostLoadImage_reply_of_ne_nil {bytes : List Byte} (h : bytes ≠ []) :
    (s.hostLoadImage bytes).1 = .success := by
  simp [State.hostLoadImage, h]

theorem State.hostStart_of_no_image (h : s.image = none) : s.hostStart = (.noImageLoaded, s) := by
  simp [State.hostStart, h]

theorem State.hostStart_reply_of_image (h : s.image ≠ none) : s.hostStart.1 = .success := by
  unfold State.hostStart
  rw [if_neg h]
  split_ifs <;> rfl

/-- The reply is one of the two errors of R90. -/
def Reply.IsHostError (r : Reply) : Prop := r = .imageTooSmall ∨ r = .noImageLoaded

theorem Reply.not_isHostError_success : ¬ Reply.success.IsHostError := by simp [Reply.IsHostError]

theorem State.dumpMemory_not_isHostError (a : Word) (n : Nat) : ¬ (s.dumpMemory a n).IsHostError := by
  unfold State.dumpMemory
  split <;> simp [Reply.IsHostError]

end Replies

/-! ## The two errors (O44) -/

/-- The operation is, in state `s`, one of the two that R90 answers with an error. -/
def BlockOp.Errs (op : BlockOp) (s : State) : Prop := op = .loadImage [] ∨ op = .start ∧ s.image = none

/-- What a move can be (R90): one of the two errors with the state unchanged, or an operation that has no error and
answers none. -/
theorem perform_reply_cases {op : BlockOp} {s t : State} {r : Reply} (h : perform op s = some (r, t)) :
    (op = .loadImage [] ∧ r = .imageTooSmall ∧ t = s) ∨
      (op = .start ∧ s.image = none ∧ r = .noImageLoaded ∧ t = s) ∨
      (¬ op.Errs s ∧ ¬ r.IsHostError) := by
  cases op with
  | step =>
    obtain ⟨rfl, -⟩ := State.stepOp_eq_some_iff.mp h
    exact .inr (.inr ⟨by simp [BlockOp.Errs], Reply.not_isHostError_success⟩)
  | start =>
    have hstart : s.hostStart = (r, t) := Option.some.inj h
    by_cases himage : s.image = none
    · cases (State.hostStart_of_no_image himage).symm.trans hstart
      exact .inr (.inl ⟨rfl, himage, rfl, rfl⟩)
    · have hr : r = .success := (congrArg Prod.fst hstart).symm.trans (State.hostStart_reply_of_image himage)
      exact .inr (.inr ⟨by simp [BlockOp.Errs, himage], hr ▸ Reply.not_isHostError_success⟩)
  | loadImage bytes =>
    have hload : s.hostLoadImage bytes = (r, t) := (State.whileHalted_eq_some_iff.mp h).2
    by_cases hnil : bytes = []
    · subst hnil
      cases State.hostLoadImage_nil.symm.trans hload
      exact .inl ⟨rfl, rfl, rfl⟩
    · have hr : r = .success := (congrArg Prod.fst hload).symm.trans (State.hostLoadImage_reply_of_ne_nil hnil)
      exact .inr (.inr ⟨by simp [BlockOp.Errs, hnil], hr ▸ Reply.not_isHostError_success⟩)
  | writeWord a v =>
    cases (State.whileHalted_eq_some_iff.mp h).2
    exact .inr (.inr ⟨by simp [BlockOp.Errs], Reply.not_isHostError_success⟩)
  | dumpMemory a n =>
    cases h
    exact .inr (.inr ⟨by simp [BlockOp.Errs], State.dumpMemory_not_isHostError a n⟩)
  | reset | stop | resetAndReload | readWord | dumpRegisters =>
    cases h
    exact .inr (.inr ⟨by simp [BlockOp.Errs], by simp [Reply.IsHostError]⟩)

/-- Settles O44, by what a move can be. -/
theorem hostErrorsAreTwoAndChangeNothing : Obligations.HostErrorsAreTwoAndChangeNothing := by
  intro op s t r h
  rcases perform_reply_cases h with ⟨rfl, rfl, rfl⟩ | ⟨rfl, himage, rfl, rfl⟩ | ⟨hop, hr⟩
  · simp
  · simp [himage]
  · obtain ⟨hsmall, hnone⟩ := not_or.mp hr
    obtain ⟨hload, hstart⟩ := not_or.mp hop
    exact ⟨iff_of_false hsmall hload, iff_of_false hnone hstart, fun herr => absurd herr hr⟩

end Sys2Proof.Machine
end

section
/-! PROOF. The statements about reset, start and stop and the hazards (70_reset_and_hazards.md), O36 and O42, and the
rules they rest on: that no step changes memory, in either mode, and that `start()` runs a Halted core that has an
image and no recorded fault. -/

namespace Sys2Proof.Machine

open Sys2Proof.Claims

variable {s t : State}

/-! ## A host write and the next fetch (O36) -/

/-- No shape of a step changes a byte of memory, in either mode (R115). -/
theorem step_keeps_bytes (h : step s = .next t) : BytesKept s t := by
  rcases step_shape s with ⟨-, hs⟩ | ⟨-, -, f, hs⟩ | ⟨-, hs⟩ | ⟨-, i, -, hs⟩
  · cases hs.symm.trans h
    exact fun _ => rfl
  · cases hs.symm.trans h
    exact fun _ => rfl
  · cases hs.symm.trans h
    exact s.byteAt_retire
  · obtain ⟨-, ⟨-, -, -, -, -, -, hbytes⟩, -⟩ := instructionFrame i s t (hs.symm.trans h)
    exact hbytes

/-- Settles O36: no step changes memory, and a write that reaches memory at `pc` is the word a fetch reads there. -/
theorem hostWriteIsSeenByTheNextFetch : Obligations.HostWriteIsSeenByTheNextFetch := by
  refine ⟨fun _ _ => step_keeps_bytes, fun s t a v r hmem hmove hin halign hpc => ?_⟩
  have hreach : wordReaches s.cfg a = true := (wordReaches_iff_address s.cfg a).mpr ⟨hin, halign⟩
  cases (State.whileHalted_eq_some_iff.mp hmove).2
  have hfetch : wordReaches (s.writeWord a v).cfg (s.writeWord a v).pc = true := by
    rwa [hpc, State.writeWord_cfg]
  rw [State.fetch_of_reaches (.inr hfetch), hpc, State.readWord_writeWord s a v hmem hreach]

/-! ## Stop and resume (O42) -/

/-- `start()` of a Halted core with an image and no recorded fault sets `run` and nothing else (R106, D19). -/
theorem State.hostStart_of_halted (himage : s.image ≠ none) (hrun : s.run = .halted) (hfault : s.fault = none) :
    s.hostStart = (.success, { s with run := .running }) := by
  simp [State.hostStart, himage, hrun, hfault]

/-- Settles O42: `stop()` writes `run` alone, so `start()` after it has only `run` to put back. -/
theorem stopThenStartResumes : Obligations.StopThenStartResumes := by
  refine ⟨fun _ => ⟨rfl, rfl⟩, fun s hrun himage hfault => ?_⟩
  have hstart : s.hostStop.hostStart = (.success, { s with run := .running }) :=
    State.hostStart_of_halted himage rfl hfault
  have hback : { s with run := .running } = s := by rw [← hrun]
  rw [hback] at hstart
  exact congrArg some hstart

end Sys2Proof.Machine
end

section
/-! PROOF. The statements about the encoding (30_encoding.md), O18, O19, O21 and O22, and the rules they rest on: what
the decoder answers on a word of each format, that a family's recognized word is the word of its instruction, and that
`shamt` is an operand that nothing reads. -/

namespace Sys2Proof.Machine

open Sys2Proof.Claims

/-! ## Decoding a word of each format (O18) -/

section Formats

variable (rd rs rt : RegNum)

/-- A word of the R format is decoded by its function alone, each operand from its own field (R56, R59). -/
theorem decode_encodeR (funct : BitVec 6) (shamt : BitVec 5) :
    decode (encodeR funct rd rs rt shamt) =
      if funct = functAdd then .recognized (.add rd rs rt shamt)
      else if funct = functAnd then .recognized (.and rd rs rt shamt)
      else if funct = functOr then .recognized (.or rd rs rt shamt)
      else if funct = functSlt then .recognized (.slt rd rs rt shamt)
      else .unrecognized := by
  rw [decode, if_pos (fieldOp_encodeR funct rd rs rt shamt)]
  simp only [decodeR, fieldFunct_encodeR, fieldRd_encodeR, fieldRs_encodeR, fieldRt_encodeR, fieldShamt_encodeR]

/-- A word of the I format with an opcode of no other family is decoded by its opcode (R56, R60). -/
theorem decode_encodeI {op : BitVec 6} (hop : op ∉ [opRFamily, opJ, opJal]) (imm : BitVec 16) :
    decode (encodeI op rt rs imm) =
      if op = opAddi then .recognized (.addi rt rs imm)
      else if op = opAndi then .recognized (.andi rt rs imm)
      else if op = opOri then .recognized (.ori rt rs imm)
      else if op = opLw then .recognized (.lw rt rs imm)
      else .unrecognized := by
  obtain ⟨hR, hJ, hJal⟩ : op ≠ opRFamily ∧ op ≠ opJ ∧ op ≠ opJal := by simpa using hop
  simp only [decode, decodeI, fieldOp_encodeI, fieldRt_encodeI, fieldRs_encodeI, fieldImm_encodeI, if_neg hR,
    if_neg hJ, if_neg hJal]

end Formats

theorem decode_encodeJ_opJ (target : BitVec 26) : decode (encodeJ opJ target) = .recognized (.j target) := by
  rw [decode, fieldOp_encodeJ, fieldTarget_encodeJ]
  rfl

theorem decode_encodeJ_opJal (target : BitVec 26) : decode (encodeJ opJal target) = .recognized (.jal target) := by
  rw [decode, fieldOp_encodeJ, fieldTarget_encodeJ]
  rfl

/-- Settles O18: the decoder on the format of each instruction, at the number of that instruction. -/
theorem decodeOfEncodedInstruction : Obligations.DecodeOfEncodedInstruction := by
  intro i
  cases i with
  | add rd rs rt shamt | and rd rs rt shamt | or rd rs rt shamt | slt rd rs rt shamt =>
    exact decode_encodeR rd rs rt _ shamt
  | addi rt rs imm | andi rt rs imm | ori rt rs imm | lw rt rs imm => exact decode_encodeI rs rt (by decide) imm
  | j target => exact decode_encodeJ_opJ target
  | jal target => exact decode_encodeJ_opJal target

/-! ## The word of a decoded instruction (O19) -/

section Recognized

variable {w : Word} {i : Instr}

/-- A word that the R-family recognizes is made of the function it was recognized by and its other fields. -/
theorem encode_of_decodeR (hop : fieldOp w = opRFamily) (h : decodeR w = .recognized i) : encode i = w := by
  have hw := word_eq_encodeR w hop
  unfold decodeR at h
  split_ifs at h with hf hf hf hf
  all_goals
    cases h
    rw [hf] at hw
    exact hw.symm

/-- A word that the I-family recognizes is made of the opcode it was recognized by and its other fields. -/
theorem encode_of_decodeI (h : decodeI w = .recognized i) : encode i = w := by
  have hw := word_eq_encodeI w
  unfold decodeI at h
  split_ifs at h with hf hf hf hf
  all_goals
    cases h
    rw [hf] at hw
    exact hw.symm

/-- A word with the opcode of the J format is made of that opcode and its target. -/
theorem encodeJ_of_fieldOp {op : BitVec 6} (hop : fieldOp w = op) : encodeJ op (fieldTarget w) = w := by
  rw [← hop]
  exact (word_eq_encodeJ w).symm

end Recognized

/-- Settles O19, by the family that recognizes the word. -/
theorem encodeOfDecodedWord : Obligations.EncodeOfDecodedWord := by
  intro w i h
  unfold decode at h
  split_ifs at h with hR hJ hJal
  · exact encode_of_decodeR hR h
  · cases h
    exact encodeJ_of_fieldOp hJ
  · cases h
    exact encodeJ_of_fieldOp hJal
  · exact encode_of_decodeI h

/-! ## Words that differ only in `shamt` (O22) -/

/-- The instruction with another `shamt`, where it has one. -/
def withShamt (shamt : BitVec 5) : Instr → Instr
  | .add rd rs rt _ => .add rd rs rt shamt
  | .and rd rs rt _ => .and rd rs rt shamt
  | .or rd rs rt _ => .or rd rs rt shamt
  | .slt rd rs rt _ => .slt rd rs rt shamt
  | i => i

/-- No meaning reads `shamt` (R62). -/
theorem exec_withShamt (shamt : BitVec 5) (i : Instr) (s : State) : exec (withShamt shamt i) s = exec i s := by
  cases i <;> rfl

/-- A field of a field, at its place in the whole. -/
theorem extractLsb'_extractLsb' {n : Nat} (x : BitVec n) {start len i k : Nat} (h : i + k ≤ len) :
    (x.extractLsb' start len).extractLsb' i k = x.extractLsb' (start + i) k := by
  refine BitVec.eq_of_getLsbD_eq fun j hj => ?_
  have hlen : i + j < len := by omega
  simp [hj, hlen, Nat.add_assoc]

/-- Bits 31:11 hold the opcode and the three registers (R55). -/
theorem fields_of_high_bits {w w' : Word} (h : w.extractLsb' 11 21 = w'.extractLsb' 11 21) :
    fieldOp w = fieldOp w' ∧ fieldRd w = fieldRd w' ∧ fieldRs w = fieldRs w' ∧ fieldRt w = fieldRt w' := by
  have hfield : ∀ i k, i + k ≤ 21 → w.extractLsb' (11 + i) k = w'.extractLsb' (11 + i) k := fun i k hik => by
    rw [← extractLsb'_extractLsb' w hik, ← extractLsb'_extractLsb' w' hik, h]
  exact ⟨hfield 15 6 (by decide), hfield 0 5 (by decide), hfield 10 5 (by decide), hfield 5 5 (by decide)⟩

/-- The R-family recognizes by the function, and takes the registers and `shamt` from the word. -/
theorem decodeR_withShamt {w w' : Word} {i : Instr} (hrd : fieldRd w = fieldRd w') (hrs : fieldRs w = fieldRs w')
    (hrt : fieldRt w = fieldRt w') (hfunct : fieldFunct w = fieldFunct w') (h : decodeR w = .recognized i) :
    decodeR w' = .recognized (withShamt (fieldShamt w') i) := by
  unfold decodeR at h ⊢
  rw [hrd, hrs, hrt, hfunct] at h
  split_ifs at h ⊢
  all_goals
    cases h
    rfl

/-- Settles O22: the second word is the first instruction with the second word's `shamt`. -/
theorem shamtIsIgnored : Obligations.ShamtIsIgnored := by
  intro w w' i hop hhigh hfunct h
  obtain ⟨hop', hrd, hrs, hrt⟩ := fields_of_high_bits hhigh
  have hR : fieldOp w = opRFamily := hop
  rw [decode, if_pos hR] at h
  refine ⟨withShamt (fieldShamt w') i, ?_, exec_withShamt _ i⟩
  rw [decode, if_pos (hop'.symm.trans hR)]
  exact decodeR_withShamt hrd hrs hrt hfunct h

/-! ## The spec's own words (O21) -/

/-- Settles O21: the decoder evaluated on each of the ten words. -/
theorem specWordsDecode : Obligations.SpecWordsDecode := by
  unfold Obligations.SpecWordsDecode
  decide

end Sys2Proof.Machine
end

section
/-! PROOF. The statements about runs and modes of the step, O28, O49 and O51 (70_reset_and_hazards.md R111,
60_exceptions.md R96 and R97), and the rules they rest on: a state that a step gives back, the faults of a strict step,
and that a step without a fault commutes with turning strict mode off. -/

namespace Sys2Proof.Machine

open Sys2Proof.Claims

/-! ## The self-loop (O28) -/

/-- The word at `pc` is a J, and its target is `pc` (R111). -/
theorem State.atSelfLoop_iff (s : State) :
    s.atSelfLoop = true ↔
      ∃ target, decode (s.readWord s.pc) = .recognized (.j target) ∧ targetBits s.pc target = s.pc := by
  unfold State.atSelfLoop
  split
  · rename_i target h
    simp [h, jumpTarget_eq_targetBits]
  · rename_i hno
    exact iff_of_false Bool.false_ne_true fun ⟨target, h, _⟩ => hno target h

/-- A self-loop whose target is a transfer gives the state back: Retire puts its own address in `pc`. -/
theorem step_at_selfLoop {s : State} (hquiet : s.Quiet) (hrun : s.run = .running) (hloop : s.atSelfLoop = true)
    (hpc : s.cfg.zeroTargetIsNoTransfer = true → s.pc ≠ 0#32) : step s = .next s := by
  obtain ⟨target, hword, htarget⟩ := s.atSelfLoop_iff.mp hloop
  have hback : pcAfterJump s.cfg s.pc target = s.pc := by
    rw [pcAfterJump, htarget, if_neg fun hno => hpc hno.1 hno.2]
  rw [step_of_recognized hrun hword, exec_j_of_quiet target hquiet, hback]

/-- A state that a step gives back is given back by any number of steps. -/
theorem core_run_of_fixed {s : State} (h : step s = .next s) (k : Nat) : Host.Core.run core k s = .next s := by
  induction k with
  | zero => rfl
  | succ k ih => rw [core_run_succ k h, ih]

/-- Settles O28: a step at the self-loop gives the state back. -/
theorem selfLoopIsAFixedPoint : Obligations.SelfLoopIsAFixedPoint :=
  fun k _ hquiet hrun hloop hpc => core_run_of_fixed (step_at_selfLoop hquiet hrun hloop hpc) k

/-! ## The checks of a strict step (O49) -/

section Strict

variable {s : State} (hrun : s.run = .running) (hstrict : s.cfg.strictMode = true)
include hrun hstrict

/-- The first check: the fetch address (R96, code 1). -/
theorem step_of_fetch_fault (hno : wordReaches s.cfg s.pc = false) :
    step s = .next (s.takeFault (.fetchOutOfRange s.pc)) := by
  simp [step, State.fetch, hrun, hstrict, hno]

/-- The second check: the decoding (R96, code 2). -/
theorem step_of_decode_fault (hreach : wordReaches s.cfg s.pc = true)
    (hword : decode (s.readWord s.pc) = .unrecognized) :
    step s = .next (s.takeFault (.unrecognized s.pc (s.readWord s.pc))) := by
  rw [step_of_fetch hrun (State.fetch_of_reaches (.inr hreach))]
  simp [runWord, execUnrecognized, hword, hstrict]

end Strict

/-- Settles O49: the faults by their definition, and each check of a strict step in its order. -/
theorem strictModeChecksInOrder : Obligations.StrictModeChecksInOrder := by
  refine ⟨fun pc w ea => ⟨rfl, rfl, rfl, rfl, rfl, rfl, rfl, rfl⟩, fun s hrun hstrict => ?_⟩
  by_cases hreach : wordReaches s.cfg s.pc = true
  · have ⟨hin, halign⟩ := (wordReaches_iff_address s.cfg s.pc).mp hreach
    rw [if_neg (not_or.mpr ⟨not_not_intro hin, not_not_intro halign⟩)]
    split
    · rename_i hword
      exact step_of_decode_fault hrun hstrict hreach hword
    · rename_i rt rs imm hword
      have hload := (step_of_recognized hrun hword).trans (exec_lw rt rs imm s)
      dsimp only
      split_ifs with hea hmis
      · rw [hload, State.loadInto_of_misaligned rt hea hmis, if_pos hstrict]
        rfl
      · exact step_of_recognized hrun hword
      · rw [hload, State.loadInto_of_outside rt hea, if_pos hstrict]
        rfl
    · rename_i i _ hword
      exact step_of_recognized hrun hword
  · have hpc : ¬ InWindow s.cfg s.pc ∨ s.pc.toNat % 4 ≠ 0 :=
      not_and_or.mp (mt (wordReaches_iff_address s.cfg s.pc).mpr hreach)
    rw [if_pos hpc]
    exact step_of_fetch_fault hrun hstrict (Bool.eq_false_iff.mpr hreach)

/-! ## A strict step without a fault (O51) -/

section Silent

variable (s : State)

theorem silent_strictMode : (silent s).cfg.strictMode = false := rfl

theorem silent_pc : (silent s).pc = s.pc := rfl

theorem writeReg_silent (r : RegNum) (v : Word) : (silent s).writeReg r v = silent (s.writeReg r v) := by
  unfold State.writeReg
  split <;> rfl

theorem setTransfer_silent (a : Word) : (silent s).setTransfer a = silent (s.setTransfer a) := rfl

theorem retire_silent : (silent s).retire = silent s.retire := by
  have hpending : (silent s).transferPending = s.transferPending := rfl
  unfold State.retire
  rw [hpending]
  split <;> rfl

theorem finish_silent (r : RegNum) (v : Word) : (silent s).finish r v = mapNext silent (s.finish r v) := by
  rw [State.finish, writeReg_silent, retire_silent]
  rfl

/-- An instruction that is no load has no check to leave out. -/
theorem exec_silent {i : Instr} (hload : isLoad i = false) : exec i (silent s) = mapNext silent (exec i s) := by
  cases i with
  | lw rt rs imm => cases hload
  | j target => rw [exec_j, exec_j, silent_pc, setTransfer_silent, retire_silent]; rfl
  | jal target => rw [exec_jal, exec_jal, silent_pc, writeReg_silent, setTransfer_silent, retire_silent]; rfl
  | _ => exact finish_silent s _ _

variable {s} {t : State} (hfault : t.fault = none)
include hfault

theorem takeFault_ne_of_no_fault (f : StrictFault) : s.takeFault f ≠ t := by
  rintro rfl
  cases hfault

/-- Where a check of the strict mode left no fault, what comes after the check answered. -/
theorem next_of_checked {f : StrictFault} {o : Host.Outcome State Fault Refusal}
    (h : (if s.cfg.strictMode then .next (s.takeFault f) else o) = .next t) : o = .next t := by
  split at h
  · exact absurd (Host.Outcome.next.inj h) (takeFault_ne_of_no_fault hfault f)
  · exact h

/-- A load by the place of its effective address: the two checks passed, or there were none. -/
theorem loadInto_silent {rt : RegNum} {ea : Word} (h : s.loadInto rt ea = .next t) :
    (silent s).loadInto rt ea = .next (silent t) := by
  by_cases hin : InWindow s.cfg ea
  · by_cases halign : ea.toNat % 4 = 0
    · rw [State.loadInto_of_aligned rt hin halign] at h
      rw [State.loadInto_of_aligned (s := silent s) rt hin halign]
      exact (finish_silent s rt _).trans (congrArg (mapNext silent) h)
    · rw [State.loadInto_of_misaligned rt hin halign] at h
      rw [State.loadInto_of_misaligned (s := silent s) rt hin halign]
      exact (finish_silent s rt 0#32).trans (congrArg (mapNext silent) (next_of_checked hfault h))
  · rw [State.loadInto_of_outside rt hin] at h
    rw [State.loadInto_of_outside (s := silent s) rt hin]
    exact (congrArg _ (retire_silent s)).trans (congrArg (mapNext silent) (next_of_checked hfault h))

theorem exec_silent_of_no_fault {i : Instr} (h : exec i s = .next t) : exec i (silent s) = .next (silent t) := by
  cases i with
  | lw rt rs imm => exact loadInto_silent hfault h
  | _ => exact (exec_silent s rfl).trans (congrArg (mapNext silent) h)

theorem runWord_silent {w : Word} (h : runWord w s = .next t) : runWord w (silent s) = .next (silent t) := by
  cases hword : decode w with
  | recognized i =>
    rw [runWord_of_recognized hword] at h ⊢
    exact exec_silent_of_no_fault hfault h
  | unrecognized =>
    simp only [runWord, hword, execUnrecognized] at h
    rw [runWord_of_unrecognized hword (silent_strictMode s), retire_silent]
    exact congrArg (mapNext silent) (next_of_checked hfault h)

/-- A Running step that takes no fault runs the word at `pc`, in either mode. -/
theorem runWord_of_no_fault (hrun : s.run = .running) (h : step s = .next t) :
    runWord (s.readWord s.pc) s = .next t := by
  by_cases hreach : s.cfg.strictMode = false ∨ wordReaches s.cfg s.pc = true
  · rwa [step_of_fetch hrun (State.fetch_of_reaches hreach)] at h
  · simp only [not_or, Bool.not_eq_false, Bool.not_eq_true] at hreach
    obtain ⟨hstrict, hno⟩ := hreach
    have hs := step_of_fetch_fault hrun hstrict hno
    exact absurd (Host.Outcome.next.inj (hs.symm.trans h)) (takeFault_ne_of_no_fault hfault _)

end Silent

/-- Settles O51: a Halted step changes nothing in either mode, and a Running one runs the same word. -/
theorem strictStepWithoutFaultIsTheSilentStep : Obligations.StrictStepWithoutFaultIsTheSilentStep := by
  intro s t _ h hfault
  cases hrun : s.run with
  | halted =>
    cases (step_of_halted hrun).symm.trans h
    exact step_of_halted (s := silent s) hrun
  | running =>
    rw [step_of_silent (s := silent s) hrun (silent_strictMode s)]
    exact runWord_silent hfault (runWord_of_no_fault hfault hrun h)

end Sys2Proof.Machine
end

section
/-! PROOF. The statements about reset, the image and the dump of memory, O31, O37 to O41 and O47
(70_reset_and_hazards.md R104 to R112, 20_memory.md R47 and R48), and the rules they rest on: which operations leave
the reset values, what a byte reads as after the image copy, and that reset values meet the invariant. -/

namespace Sys2Proof.Machine

open Sys2Proof.Claims

/-! ## The reset values (O38) -/

theorem resetValues_construct (c : Config) : ResetValues c (State.construct c) :=
  ⟨rfl, rfl, rfl, rfl, rfl, rfl, rfl, rfl, rfl, rfl, rfl⟩

/-- A reset is construction in the same configuration, but for memory and the image, which are no reset values. -/
theorem resetValues_hostReset (s : State) : ResetValues s.cfg s.hostReset := resetValues_construct s.cfg

theorem State.readReg_of_cleared {t : State} (h : t.gpr = Vector.replicate 32 0#32) (q : RegNum) :
    t.readReg q = 0#32 := by
  simp [State.readReg, h]

/-- Settles O38: reset keeps memory and the image, and construction starts with neither. -/
theorem resetLeavesTheInitialLayout : Obligations.ResetLeavesTheInitialLayout :=
  ⟨fun s => ⟨s.hostReset, rfl, resetValues_hostReset s, fun _ => rfl, rfl⟩,
    fun c => ⟨resetValues_construct c, fun _ => rfl, rfl⟩⟩

/-! ## The invariant at construction (O31) -/

/-- The reset values meet the invariant, whatever canonical memory and image come with them. -/
theorem State.inv_of_resetValues {c : Config} {t : State} (h : ResetValues c t) (hmem : t.MemOk)
    (himage : t.image ≠ some []) : t.Inv := by
  obtain ⟨-, hgpr, hpc, hnext, hpending, hhi, hlo, hcr, hll, hrun, hfault⟩ := h
  obtain ⟨-, -, -, -, hvector⟩ := config_constraints c
  have haligned : t.PcAligned := (congrArg (·.toNat % 4) hpc).trans hvector
  have hzero : t.gpr[0] = 0#32 := by simp [hgpr]
  refine ⟨⟨hnext, hpending⟩, haligned, hmem, ⟨hzero, hhi, hlo, hcr, hll⟩, ⟨fun _ => hfault, fun _ => hrun⟩,
    fun hrunning => ?_, himage⟩
  cases hrun.symm.trans hrunning

/-- Settles O31: construction leaves the reset values, an empty memory and no image. -/
theorem constructionMeetsInvariant : Obligations.ConstructionMeetsInvariant := by
  have hinv : ∀ c, (State.construct c).Inv := fun c =>
    State.inv_of_resetValues (resetValues_construct c) ⟨rfl, rfl⟩ (Option.some_ne_none []).symm
  exact ⟨hinv, hinv Config.reference⟩

/-! ## The image copy (O39, O40) -/

section Image

variable (c : Config) (bytes : List Byte)

/-- The offsets that a copy reaches, without the truncated subtraction. -/
theorem lt_copiedLength_iff {o : Nat} :
    o < copiedLength c bytes ↔ c.headerSize + o < bytes.length ∧ o < c.memSize := by
  simp only [copiedLength]
  omega

theorem length_imagePayload : (imagePayload c bytes).length = copiedLength c bytes := by
  simp [imagePayload, copiedLength, Nat.min_comm]

/-- The payload starts past the header (R47). -/
theorem getElem_imagePayload {o : Nat} (h : o < (imagePayload c bytes).length) :
    (imagePayload c bytes)[o] = bytes.getD (c.headerSize + o) 0#8 := by
  have hin : c.headerSize + o < bytes.length := by
    rw [length_imagePayload, lt_copiedLength_iff] at h
    exact h.1
  simp [imagePayload, hin]

/-- After the copy the offsets of the payload read as the image past its header, and the others as before (D17). -/
theorem imageCopied_copyImage {s : State} (hmem : Memory.wf s.mem = true) :
    ImageCopied s (s.copyImage bytes) bytes := by
  intro o
  rw [State.byteAt, State.copyImage_mem, Memory.get_copy _ _ _ _ hmem, ← length_imagePayload]
  split
  · rename_i hin
    rw [if_pos (by omega), getElem_imagePayload]
    rfl
  · rename_i hout
    rw [if_neg (by omega)]
    rfl

end Image

section Reload

variable {s : State}

theorem State.whileHalted_of_running (h : s.run = .running) (p : Reply × State) : s.whileHalted p = none := if_pos h

theorem State.whileHalted_of_halted (h : s.run = .halted) (p : Reply × State) : s.whileHalted p = some p := by
  simp [State.whileHalted, h]

theorem State.hostLoadImage_of_ne_nil {bytes : List Byte} (h : bytes ≠ []) :
    s.hostLoadImage bytes = (.success, { s.copyImage bytes with image := some bytes }.hostReset) := if_neg h

theorem State.hostResetAndReload_of_no_image (h : s.image = none) : s.hostResetAndReload = s.hostReset := by
  rw [State.hostResetAndReload, h]
  rfl

theorem State.hostResetAndReload_of_image {bytes : List Byte} (h : s.image = some bytes) :
    s.hostResetAndReload = s.hostReset.copyImage bytes := by
  rw [State.hostResetAndReload, h]
  rfl

end Reload

/-- Settles O39: what a load of an image leaves is the reset of the copy. -/
theorem loadImageCopiesThePayload : Obligations.LoadImageCopiesThePayload := by
  intro s bytes hmem
  refine ⟨fun hrun => State.whileHalted_of_running hrun _, fun hrun hnil => ?_, fun hrun hne => ?_⟩
  · subst hnil
    exact State.whileHalted_of_halted hrun _
  · refine ⟨{ s.copyImage bytes with image := some bytes }.hostReset, ?_, resetValues_hostReset _, rfl,
      imageCopied_copyImage bytes hmem⟩
    exact (State.whileHalted_of_halted hrun _).trans (congrArg some (State.hostLoadImage_of_ne_nil hne))

/-- Settles O40: without an image the operation is a reset, and with one the copy comes after the reset. -/
theorem resetAndReloadCopiesTheKeptImage : Obligations.ResetAndReloadCopiesTheKeptImage := by
  intro s hmem
  refine ⟨s.hostResetAndReload, rfl, ?_⟩
  cases himage : s.image with
  | none =>
    rw [State.hostResetAndReload_of_no_image himage]
    exact ⟨resetValues_hostReset s, himage, fun _ _ => rfl, fun _ h => nomatch h⟩
  | some bytes =>
    rw [State.hostResetAndReload_of_image himage]
    refine ⟨resetValues_hostReset s, himage, fun h => (nomatch h), fun _ h => ?_⟩
    cases h
    exact imageCopied_copyImage bytes (s := s.hostReset) hmem

/-! ## Start and boot (O41, O47) -/

/-- Settles O41: the cases of `hostStart`, with a recorded fault in the words of the statement. -/
theorem startFollowsItsCases : Obligations.StartFollowsItsCases := by
  intro s
  simp only [perform, State.hostStart, Option.isSome_iff_ne_none]

/-- The first word of the window is one that a word access reaches (R8). -/
theorem wordReaches_memBase (c : Config) : wordReaches c c.memBase = true := by
  obtain ⟨halign, -, hpos, -⟩ := config_constraints c
  exact (wordReaches_iff_address c c.memBase).mpr ⟨⟨le_rfl, Nat.lt_add_of_pos_right hpos⟩, halign⟩

/-- After the copy of an image with a word of payload, the first word of the window is that word (R112). -/
theorem readWord_memBase_of_imageCopied {s t : State} {bytes : List Byte} (hcfg : t.cfg = s.cfg)
    (hcopy : ImageCopied s t bytes) (hlen : s.cfg.headerSize + 4 ≤ bytes.length) :
    t.readWord s.cfg.memBase =
      bytes.getD s.cfg.headerSize 0#8 ++ bytes.getD (s.cfg.headerSize + 1) 0#8 ++
        bytes.getD (s.cfg.headerSize + 2) 0#8 ++ bytes.getD (s.cfg.headerSize + 3) 0#8 := by
  obtain ⟨-, hsize, hpos, -⟩ := config_constraints s.cfg
  have hbyte : ∀ o, o < 4 → t.byteAt o = bytes.getD (s.cfg.headerSize + o) 0#8 := fun o ho => by
    rw [hcopy o, if_pos ((lt_copiedLength_iff s.cfg bytes).mpr (by omega))]
  rw [State.readWord_of_reaches t _ (hcfg ▸ wordReaches_memBase s.cfg), hcfg, offset, Nat.sub_self]
  rw [bigEndianAt, hbyte 0 (by decide), hbyte (0 + 1) (by decide), hbyte (0 + 2) (by decide),
    hbyte (0 + 3) (by decide)]
  rfl

/-- Settles O47: the load leaves the reset values and the copy, and `start()` sets `run` alone. -/
theorem bootFetchesTheImagePayload : Obligations.BootFetchesTheImagePayload := by
  intro s bytes hmem hrun hvector hlen
  have hne : bytes ≠ [] := List.ne_nil_of_length_pos (by omega)
  obtain ⟨-, -, hload⟩ := loadImageCopiesThePayload s bytes hmem
  obtain ⟨t, hmove, ⟨hcfg, hgpr, hpc, -, -, -, -, -, -, hhalted, hfault⟩, himage, hcopy⟩ := hload hrun hne
  have hstart := State.hostStart_of_halted (himage ▸ Option.some_ne_none bytes) hhalted hfault
  have hbase : t.pc = s.cfg.memBase := hpc.trans hvector
  refine ⟨t, { t with run := .running }, hmove, congrArg some hstart, rfl, hbase,
    State.readReg_of_cleared hgpr, ?_⟩
  have hreach : wordReaches t.cfg t.pc = true := by
    rw [hcfg, hbase]
    exact wordReaches_memBase s.cfg
  rw [State.fetch_of_reaches (s := { t with run := .running }) (.inr hreach)]
  exact congrArg Except.ok ((congrArg t.readWord hbase).trans (readWord_memBase_of_imageCopied hcfg hcopy hlen))

/-! ## The dump of memory (O37) -/

/-- A dump is in the window where each of its addresses is: the first and the last one bound the others. -/
theorem dumpInWindow_iff (c : Config) (a : Word) (n : Nat) :
    dumpInWindow c a n = true ↔
      ∀ k, k < n → c.memBase.toNat ≤ a.toNat + k ∧ a.toNat + k < c.memBase.toNat + c.memSize := by
  cases n with
  | zero => simp [dumpInWindow]
  | succ n =>
    have hends : dumpInWindow c a (n + 1) = true ↔
        c.memBase.toNat ≤ a.toNat ∧ a.toNat + (n + 1) ≤ c.memBase.toNat + c.memSize := by
      simp [dumpInWindow]
    rw [hends]
    refine ⟨fun h k hk => by omega, fun h => ?_⟩
    have hfirst := h 0 n.succ_pos
    have hlast := h n n.lt_succ_self
    omega

/-- Settles O37: in the window the dump reads the mapped offsets, the one of `a` first. -/
theorem dumpMemoryAnswersTheBytes : Obligations.DumpMemoryAnswersTheBytes := by
  intro s a n
  rw [← dumpInWindow_iff]
  have hmove : perform (.dumpMemory a n) s = some (s.dumpMemory a n, s) := rfl
  rw [hmove, State.dumpMemory]
  refine ⟨fun hin => ⟨_, by rw [if_pos hin], by simp, fun k hk => ?_⟩, fun hout => by rw [if_neg hout]⟩
  simp [hk, offset]

end Sys2Proof.Machine
end

section
/-! PROOF. The statements about all operations of the block's interface (00_scope.md R10), O30, O32, O33, O43, O45 and
O50, and the rules they rest on: which operations have a move, what a move can be, that each operation keeps the
invariant, and that blanking `cr` and `ll` commutes with each of them. -/

namespace Sys2Proof.Machine

open Sys2Proof.Claims

/-! ## Which operations have a move (O45) -/

/-- In either mode a step has a next state: no shape of a step is a fault or a refusal (R57). -/
theorem step_next (s : State) : ∃ t, step s = .next t := by
  rcases step_shape s with ⟨-, h⟩ | ⟨-, -, f, h⟩ | ⟨-, h⟩ | ⟨-, i, -, h⟩
  · exact ⟨_, h⟩
  · exact ⟨_, h⟩
  · exact ⟨_, h⟩
  · rcases exec_shape i s with ⟨r, v, hs⟩ | ⟨r, v, target, hs⟩ | ⟨-, f, hs⟩
    · exact ⟨_, h.trans hs⟩
    · exact ⟨_, h.trans hs⟩
    · exact ⟨_, h.trans hs⟩

theorem State.stepOp_of_step {s t : State} (h : step s = .next t) : s.stepOp = some (.success, t) :=
  State.stepOp_eq_some_iff.mpr ⟨rfl, h⟩

theorem State.whileHalted_eq_none_iff {s : State} {p : Reply × State} :
    s.whileHalted p = none ↔ s.run = .running := by
  simp [State.whileHalted]

/-- Settles O45: the two operations that ask for a Halted core, and the others, which always have a move. -/
theorem memoryIsMutatedOnlyWhileHalted : Obligations.MemoryIsMutatedOnlyWhileHalted := by
  intro op s
  cases op with
  | step =>
    obtain ⟨t, h⟩ := step_next s
    simp [perform, State.stepOp_of_step h]
  | loadImage bytes => simp [perform, State.whileHalted_eq_none_iff]
  | writeWord a v => simp [perform, State.whileHalted_eq_none_iff]
  | reset | start | stop | resetAndReload | readWord | dumpRegisters | dumpMemory => simp [perform]

/-! ## What a move can be -/

/-- The operation is one that leaves the reset values (R104, R108, R47). -/
def BlockOp.Resets (op : BlockOp) : Prop :=
  op = .reset ∨ op = .resetAndReload ∨ ∃ bytes, bytes ≠ [] ∧ op = .loadImage bytes

/-- `start()` changes nothing, or a Halted core that may run becomes Running (R106). -/
theorem State.hostStart_cases (s : State) :
    s.hostStart.2 = s ∨
      (s.image ≠ none ∧ s.run = .halted ∧ ¬ (s.cfg.strictMode = true ∧ s.fault ≠ none) ∧
        s.hostStart.2 = { s with run := .running }) := by
  unfold State.hostStart
  split_ifs with himage hrun hfault
  · exact .inl rfl
  · exact .inl rfl
  · exact .inl rfl
  · refine .inr ⟨himage, ?_, hfault, rfl⟩
    cases h : s.run with
    | halted => rfl
    | running => exact absurd h hrun

theorem resetValues_hostResetAndReload (s : State) : ResetValues s.cfg s.hostResetAndReload := by
  cases himage : s.image with
  | none =>
    rw [State.hostResetAndReload_of_no_image himage]
    exact resetValues_hostReset s
  | some bytes =>
    rw [State.hostResetAndReload_of_image himage]
    exact resetValues_hostReset s

theorem State.writeWord_eq_withMem (s : State) (a : Word) (v : Nat) :
    s.writeWord a v = { s with mem := (s.writeWord a v).mem } := by
  unfold State.writeWord
  split <;> rfl

/-- What a move can be: a step; a `start()` that sets `run`; a `stop()`; an operation that leaves the reset values; or
one that resets nothing and changes at most memory. -/
theorem perform_cases {op : BlockOp} {s t : State} {r : Reply} (h : perform op s = some (r, t)) :
    (op = .step ∧ step s = .next t) ∨
      (op = .start ∧ s.run = .halted ∧ ¬ (s.cfg.strictMode = true ∧ s.fault ≠ none) ∧
        t = { s with run := .running }) ∨
      (op = .stop ∧ t = s.hostStop) ∨
      (op.Resets ∧ ResetValues s.cfg t) ∨
      (¬ op.Resets ∧ ∃ m, t = { s with mem := m }) := by
  cases op with
  | step => exact .inl ⟨rfl, (State.stepOp_eq_some_iff.mp h).2⟩
  | start =>
    have ht : s.hostStart.2 = t := congrArg Prod.snd (Option.some.inj h)
    rcases s.hostStart_cases with hs | ⟨-, hrun, hfault, hs⟩
    · exact .inr (.inr (.inr (.inr ⟨by simp [BlockOp.Resets], s.mem, ht.symm.trans hs⟩)))
    · exact .inr (.inl ⟨rfl, hrun, hfault, ht.symm.trans hs⟩)
  | stop =>
    cases h
    exact .inr (.inr (.inl ⟨rfl, rfl⟩))
  | reset =>
    cases h
    exact .inr (.inr (.inr (.inl ⟨.inl rfl, resetValues_hostReset s⟩)))
  | resetAndReload =>
    cases h
    exact .inr (.inr (.inr (.inl ⟨.inr (.inl rfl), resetValues_hostResetAndReload s⟩)))
  | loadImage bytes =>
    have hload := (State.whileHalted_eq_some_iff.mp h).2
    by_cases hnil : bytes = []
    · subst hnil
      cases State.hostLoadImage_nil.symm.trans hload
      exact .inr (.inr (.inr (.inr ⟨by simp [BlockOp.Resets], s.mem, rfl⟩)))
    · cases (State.hostLoadImage_of_ne_nil hnil).symm.trans hload
      exact .inr (.inr (.inr (.inl ⟨.inr (.inr ⟨bytes, hnil, rfl⟩), resetValues_hostReset _⟩)))
  | writeWord a v =>
    cases (State.whileHalted_eq_some_iff.mp h).2
    exact .inr (.inr (.inr (.inr ⟨by simp [BlockOp.Resets], _, s.writeWord_eq_withMem a v⟩)))
  | readWord | dumpRegisters | dumpMemory =>
    cases h
    exact .inr (.inr (.inr (.inr ⟨by simp [BlockOp.Resets], s.mem, rfl⟩)))

/-! ## The configuration (O32) -/

theorem step_keeps_cfg {s t : State} (h : step s = .next t) : t.cfg = s.cfg := by
  rcases step_shape s with ⟨-, hs⟩ | ⟨-, -, f, hs⟩ | ⟨-, hs⟩ | ⟨-, i, -, hs⟩
  · cases hs.symm.trans h
    rfl
  · cases hs.symm.trans h
    rfl
  · cases hs.symm.trans h
    exact s.retire_cfg
  · obtain ⟨-, ⟨hcfg, -⟩, -⟩ := instructionFrame i s t (hs.symm.trans h)
    exact hcfg

/-- Settles O32, by what a move can be. -/
theorem configurationNeverChanges : Obligations.ConfigurationNeverChanges := by
  intro op s t r h
  rcases perform_cases h with ⟨-, hstep⟩ | ⟨-, -, -, rfl⟩ | ⟨-, rfl⟩ | ⟨-, hcfg, -⟩ | ⟨-, m, rfl⟩
  · exact step_keeps_cfg hstep
  · rfl
  · rfl
  · exact hcfg
  · rfl

/-! ## The lifecycle (O43) -/

/-- A step leaves `run` alone, or strict mode records a fault and halts (R87, R97). -/
theorem step_run_cases {s t : State} (h : step s = .next t) :
    t.run = s.run ∨ (s.cfg.strictMode = true ∧ t.fault ≠ none ∧ t.run = .halted) := by
  rcases step_shape s with ⟨-, hs⟩ | ⟨-, hstrict, f, hs⟩ | ⟨-, hs⟩ | ⟨-, i, -, hs⟩
  · cases hs.symm.trans h
    exact .inl rfl
  · cases hs.symm.trans h
    exact .inr ⟨hstrict, Option.some_ne_none f, rfl⟩
  · cases hs.symm.trans h
    exact .inl s.retire_run
  · rcases exec_next_cases (hs.symm.trans h) with ⟨r, v, -, rfl⟩ | ⟨r, v, target, -, rfl⟩ | ⟨-, hstrict, f, rfl⟩
    · exact .inl (by simp)
    · exact .inl (by simp)
    · exact .inr ⟨hstrict, Option.some_ne_none f, rfl⟩

/-- Of the operations that reset, `loadImage` has no move while Running (D18). -/
theorem BlockOp.Resets.of_running {op : BlockOp} (hop : op.Resets) {s : State} {p : Reply × State}
    (hrun : s.run = .running) (h : perform op s = some p) : op = .reset ∨ op = .resetAndReload := by
  rcases hop with hop | hop | ⟨bytes, -, rfl⟩
  · exact .inl hop
  · exact .inr hop
  · exact absurd (h.symm.trans (State.whileHalted_of_running hrun _)) (Option.some_ne_none p)

/-- Settles O43, by what a move can be and what a step does to `run`. -/
theorem onlyTheHostStartsAndStopsTheCore : Obligations.OnlyTheHostStartsAndStopsTheCore := by
  intro op s t r h
  have hne : RunState.halted ≠ .running := by decide
  rcases perform_cases h with ⟨rfl, hstep⟩ | ⟨rfl, hrun, -, rfl⟩ | ⟨rfl, rfl⟩ | ⟨hop, hreset⟩ | ⟨-, m, rfl⟩
  · rcases step_run_cases hstep with hsame | ⟨hstrict, hfault, hhalt⟩
    · exact ⟨fun hs ht => absurd (hs.symm.trans (hsame.symm.trans ht)) hne,
        fun hs ht => absurd (ht.symm.trans (hsame.trans hs)) hne⟩
    · exact ⟨fun _ ht => absurd (hhalt.symm.trans ht) hne, fun _ _ => .inr (.inr (.inr ⟨rfl, hstrict, hfault⟩))⟩
  · exact ⟨fun _ _ => rfl, fun hs _ => absurd (hrun.symm.trans hs) hne⟩
  · exact ⟨fun _ ht => absurd ht hne, fun _ _ => .inl rfl⟩
  · obtain ⟨-, -, -, -, -, -, -, -, -, hhalt, -⟩ := hreset
    refine ⟨fun _ ht => absurd (hhalt.symm.trans ht) hne, fun hs _ => ?_⟩
    exact .inr ((hop.of_running hs h).imp_right .inl)
  · exact ⟨fun hs ht => absurd (hs.symm.trans ht) hne, fun hs ht => absurd (ht.symm.trans hs) hne⟩

/-! ## A recorded fault (O50) -/

/-- Settles O50: with a recorded fault a step and `start()` change nothing, and the fault goes with a reset alone. -/
theorem strictFaultIsSticky : Obligations.StrictFaultIsSticky := by
  intro op s t r f hstrict hrun hfault h
  rcases perform_cases h with ⟨rfl, hstep⟩ | ⟨-, -, hno, -⟩ | ⟨rfl, rfl⟩ | ⟨hop, hreset⟩ | ⟨hop, m, rfl⟩
  · cases (step_of_halted hrun).symm.trans hstep
    exact ⟨hrun, by simp, fun _ => hfault⟩
  · exact absurd ⟨hstrict, hfault ▸ Option.some_ne_none f⟩ hno
  · exact ⟨rfl, by simp, fun _ => hfault⟩
  · obtain ⟨-, -, -, -, -, -, -, -, -, hhalt, hnone⟩ := hreset
    exact ⟨hhalt, fun _ => hnone, fun hno => absurd hop hno⟩
  · exact ⟨hrun, fun hyes => absurd hyes hop, fun _ => hfault⟩

/-! ## The invariant under every operation (O30) -/

section Invariant

variable {s : State}

/-- The payload of a copy fits the buffer (R47). -/
theorem State.memOk_copyImage (h : s.MemOk) (bytes : List Byte) : (s.copyImage bytes).MemOk := by
  obtain ⟨hwf, hbelow⟩ := h
  refine ⟨s.copyImage_mem_wf bytes hwf, Memory.below_copy _ _ _ _ ?_ hbelow⟩
  rw [length_imagePayload, Nat.zero_add]
  exact Nat.min_le_right _ _

/-- The four bytes of an aligned word in the window fit the buffer, whose size is a multiple of 4 (R8). -/
theorem State.memOk_writeWord (h : s.MemOk) (a : Word) (v : Nat) : (s.writeWord a v).MemOk := by
  obtain ⟨hwf, hbelow⟩ := h
  cases hreach : wordReaches s.cfg a with
  | false =>
    rw [State.writeWord_of_not_reaches s a v hreach]
    exact ⟨hwf, hbelow⟩
  | true =>
    obtain ⟨⟨hlo, hhi⟩, halign⟩ := (wordReaches_iff_offset s.cfg a).mp hreach
    obtain ⟨-, hsize, -⟩ := config_constraints s.cfg
    have hfits : offset s.cfg a + 4 ≤ s.cfg.memSize := by
      rw [offset]
      omega
    refine ⟨s.writeWord_mem_wf a v hwf, ?_⟩
    rw [State.writeWord_of_reaches s a v hreach]
    exact Memory.below_copy _ _ _ _ hfits hbelow

variable (h : s.Inv)
include h

theorem State.inv_hostReset : s.hostReset.Inv := by
  obtain ⟨-, -, hmem, -, -, -, himage⟩ := h
  exact State.inv_of_resetValues (resetValues_hostReset s) hmem himage

/-- `start()` sets `run` only with an image, and with no recorded fault: without strict mode there is none. -/
theorem State.inv_hostStart : s.hostStart.2.Inv := by
  rcases s.hostStart_cases with hs | ⟨himage, -, hno, hs⟩
  · rwa [hs]
  · obtain ⟨hquiet, hpc, hmem, hinert, ⟨hsilent, -⟩, -, hempty⟩ := h
    rw [hs]
    refine ⟨hquiet, hpc, hmem, hinert, ⟨hsilent, fun hfault => ?_⟩, fun _ => himage, hempty⟩
    have hstrict : s.cfg.strictMode = true := Bool.not_eq_false _ ▸ mt hsilent hfault
    exact absurd ⟨hstrict, hfault⟩ hno

theorem State.inv_hostStop : s.hostStop.Inv := by
  obtain ⟨hquiet, hpc, hmem, hinert, ⟨hsilent, -⟩, -, hempty⟩ := h
  exact ⟨hquiet, hpc, hmem, hinert, ⟨hsilent, fun _ => rfl⟩, fun hrun => by simp at hrun, hempty⟩

theorem State.inv_hostResetAndReload : s.hostResetAndReload.Inv := by
  have hreset := State.inv_hostReset h
  cases himage : s.image with
  | none => rwa [State.hostResetAndReload_of_no_image himage]
  | some bytes =>
    rw [State.hostResetAndReload_of_image himage]
    obtain ⟨hquiet, hpc, hmem, hrest⟩ := hreset
    exact ⟨hquiet, hpc, State.memOk_copyImage hmem bytes, hrest⟩

theorem State.inv_hostLoadImage (bytes : List Byte) : (s.hostLoadImage bytes).2.Inv := by
  by_cases hnil : bytes = []
  · rwa [hnil, State.hostLoadImage_nil]
  · obtain ⟨-, -, hmem, -⟩ := h
    rw [State.hostLoadImage_of_ne_nil hnil]
    exact State.inv_of_resetValues (resetValues_hostReset _) (State.memOk_copyImage hmem bytes)
      fun hempty => hnil (Option.some.inj hempty)

theorem State.inv_writeWord (a : Word) (v : Nat) : (s.writeWord a v).Inv := by
  obtain ⟨hquiet, hpc, hmem, hrest⟩ := h
  have hmem' := State.memOk_writeWord hmem a v
  rw [State.writeWord_eq_withMem] at hmem' ⊢
  exact ⟨hquiet, hpc, hmem', hrest⟩

end Invariant

/-- Settles O30: each operation keeps the invariant. -/
theorem operationsKeepInvariant : Obligations.OperationsKeepInvariant := by
  intro op s t r hinv h
  cases op with
  | step => exact stepKeepsInvariant s t hinv (State.stepOp_eq_some_iff.mp h).2
  | reset =>
    cases h
    exact State.inv_hostReset hinv
  | start =>
    have ht : s.hostStart.2 = t := congrArg Prod.snd (Option.some.inj h)
    exact ht ▸ State.inv_hostStart hinv
  | stop =>
    cases h
    exact State.inv_hostStop hinv
  | resetAndReload =>
    cases h
    exact State.inv_hostResetAndReload hinv
  | loadImage bytes =>
    have ht : (s.hostLoadImage bytes).2 = t := congrArg Prod.snd (State.whileHalted_eq_some_iff.mp h).2
    exact ht ▸ State.inv_hostLoadImage hinv bytes
  | writeWord a v =>
    cases (State.whileHalted_eq_some_iff.mp h).2
    exact State.inv_writeWord hinv a v
  | readWord | dumpRegisters | dumpMemory =>
    cases h
    exact hinv

/-! ## Registers that no operation reads (O33) -/

/-- The reply, and the state but for `cr` and `ll`: all of a move that can be observed (R29, R30). -/
def hideMove (p : Reply × State) : Reply × State := (p.1, blankHidden p.2)

section Hidden

variable (s : State)

/-- Blanking commutes with a step, which reads none of the registers that nothing writes and leaves them alone. -/
theorem step_blankHidden : step (blankHidden s) = mapNext blankHidden (step s) := by
  obtain ⟨t, h⟩ := step_next s
  obtain ⟨hcomm, hkeep⟩ := inertRegistersHaveNoPartInAStep s s.hi s.lo (Vector.replicate 32 0#32) false
  obtain ⟨hhi, hlo, -, -⟩ := hkeep t h
  have hblank : withInert s.hi s.lo (Vector.replicate 32 0#32) false t = blankHidden t := by
    rw [← hhi, ← hlo]
    rfl
  rw [h] at hcomm ⊢
  exact hcomm.trans (congrArg Host.Outcome.next hblank)

theorem stepOp_blankHidden : (blankHidden s).stepOp = s.stepOp.map hideMove := by
  obtain ⟨t, h⟩ := step_next s
  have hblank : step (blankHidden s) = .next (blankHidden t) := by
    rw [step_blankHidden, h]
    rfl
  rw [State.stepOp_of_step h, State.stepOp_of_step hblank]
  rfl

theorem whileHalted_blankHidden (p : Reply × State) :
    (blankHidden s).whileHalted (hideMove p) = (s.whileHalted p).map hideMove := by
  cases hrun : s.run with
  | halted =>
    rw [State.whileHalted_of_halted hrun, State.whileHalted_of_halted (s := blankHidden s) hrun]
    rfl
  | running =>
    rw [State.whileHalted_of_running hrun, State.whileHalted_of_running (s := blankHidden s) hrun]
    rfl

theorem hostStart_blankHidden : (blankHidden s).hostStart = hideMove s.hostStart := by
  simp only [State.hostStart, apply_ite hideMove]
  rfl

/-- Reset writes both registers, so their values before it have no part in it. -/
theorem hostReset_blankHidden : (blankHidden s).hostReset = blankHidden s.hostReset := rfl

theorem hostResetAndReload_blankHidden : (blankHidden s).hostResetAndReload = blankHidden s.hostResetAndReload := by
  cases himage : s.image with
  | none =>
    rw [State.hostResetAndReload_of_no_image himage, State.hostResetAndReload_of_no_image (s := blankHidden s) himage,
      hostReset_blankHidden]
  | some bytes =>
    rw [State.hostResetAndReload_of_image himage, State.hostResetAndReload_of_image (s := blankHidden s) himage,
      hostReset_blankHidden]
    rfl

theorem hostLoadImage_blankHidden (bytes : List Byte) :
    (blankHidden s).hostLoadImage bytes = hideMove (s.hostLoadImage bytes) := by
  by_cases hnil : bytes = []
  · rw [hnil]
    rfl
  · rw [State.hostLoadImage_of_ne_nil hnil, State.hostLoadImage_of_ne_nil hnil]
    rfl

theorem writeWord_blankHidden (a : Word) (v : Nat) : (blankHidden s).writeWord a v = blankHidden (s.writeWord a v) := by
  cases hreach : wordReaches s.cfg a with
  | false =>
    rw [State.writeWord_of_not_reaches s a v hreach, State.writeWord_of_not_reaches (blankHidden s) a v hreach]
  | true =>
    rw [State.writeWord_of_reaches s a v hreach, State.writeWord_of_reaches (blankHidden s) a v hreach]
    rfl

/-- Blanking commutes with every operation: none of them reads `cr` or `ll`. -/
theorem perform_blankHidden (op : BlockOp) : perform op (blankHidden s) = (perform op s).map hideMove := by
  cases op with
  | step => exact stepOp_blankHidden s
  | start => exact congrArg some (hostStart_blankHidden s)
  | resetAndReload => exact congrArg (fun t => some (Reply.success, t)) (hostResetAndReload_blankHidden s)
  | loadImage bytes =>
    have hload := whileHalted_blankHidden s (s.hostLoadImage bytes)
    rwa [← hostLoadImage_blankHidden] at hload
  | writeWord a v =>
    have hwrite := whileHalted_blankHidden s (.success, s.writeWord a v)
    rwa [hideMove, ← writeWord_blankHidden] at hwrite
  | reset | stop | readWord | dumpRegisters | dumpMemory => rfl

end Hidden

/-- Settles O33: what can be observed of a move is the move of the blanked state, which is the same for all values. -/
theorem hiddenRegistersAreUnobservable : Obligations.HiddenRegistersAreUnobservable := by
  intro op s cr ll
  calc (perform op { s with cr := cr, ll := ll }).map hideMove
      = perform op (blankHidden { s with cr := cr, ll := ll }) := (perform_blankHidden _ op).symm
    _ = perform op (blankHidden s) := rfl
    _ = (perform op s).map hideMove := perform_blankHidden s op

end Sys2Proof.Machine
end

section
/-! PROOF. The statements about the assembler and the configuration, O48, O52 and O53 (30_encoding.md R68 and R69,
00_scope.md R8), and the rules they rest on: the constraints of a configuration one by one, and which addresses a jump
reaches. -/

namespace Sys2Proof.Machine

open Sys2Proof.Claims

/-! ## The constraints of a configuration (O48) -/

theorem params_wf_iff (p : Params) :
    p.wf = true ↔
      p.memBase.toNat % 4 = 0 ∧ p.memSize % 4 = 0 ∧ 0 < p.memSize ∧ p.memBase.toNat + p.memSize ≤ 2 ^ 32 ∧
        p.resetVector.toNat % 4 = 0 := by
  simp [Params.wf, Params.baseAligned, Params.sizeAligned, Params.sizePositive, Params.windowFits,
    Params.vectorAligned, and_assoc]

/-- Parameters that meet the constraints are accepted as they are. -/
theorem ofParams?_of_wf {p : Params} (h : p.wf = true) : Config.ofParams? p = some { toParams := p, ok := h } :=
  dif_pos h

/-- Settles O48: a configuration carries its constraints, and with them it can be built. -/
theorem configurationOutsideTheConstraintsIsRejected : Obligations.ConfigurationOutsideTheConstraintsIsRejected := by
  intro p
  rw [← params_wf_iff]
  refine ⟨?_, fun h => ⟨_, ofParams?_of_wf h, rfl⟩⟩
  rintro ⟨c, -, rfl⟩
  exact c.ok

/-! ## The addresses a jump reaches (O53) -/

/-- The two low bits of a multiple of 4. -/
theorem lowBits_of_aligned {a : Word} (h : a.toNat % 4 = 0) : a.extractLsb' 0 2 = 0#2 := by
  refine BitVec.eq_of_toNat_eq ?_
  rw [BitVec.extractLsb'_toNat]
  exact h

/-- A jump with the field of an address goes to that address, where the top 4 bits agree and the low 2 are 0. -/
theorem targetBits_jumpField {own a : Word} (hpage : a.extractLsb' 28 4 = own.extractLsb' 28 4)
    (halign : a.toNat % 4 = 0) : targetBits own (jumpField a) = a := by
  have hhigh : a.extractLsb' 28 4 ++ a.extractLsb' 2 26 = a.extractLsb' 2 30 :=
    BitVec.extractLsb'_append_extractLsb'_eq_extractLsb' rfl
  have hword : a.extractLsb' 2 30 ++ a.extractLsb' 0 2 = a.extractLsb' 0 32 :=
    BitVec.extractLsb'_append_extractLsb'_eq_extractLsb' rfl
  rw [targetBits, jumpField, ← hpage, hhigh, ← lowBits_of_aligned halign, hword]
  exact BitVec.extractLsb'_eq_self

theorem jumpReaches_iff (own a : Word) :
    jumpReaches own a = true ↔ a.extractLsb' 28 4 = own.extractLsb' 28 4 ∧ a.toNat % 4 = 0 := by
  simp [jumpReaches]

/-- Every target is of the own region and a multiple of 4 (R63, R83). -/
theorem jumpReaches_targetBits (own : Word) (target : BitVec 26) :
    jumpReaches own (targetBits own target) = true := by
  refine (jumpReaches_iff own _).mpr ⟨?_, jumpTarget_eq_targetBits own target ▸ jumpTarget_aligned own target⟩
  refine BitVec.eq_of_getLsbD_eq fun i hi => ?_
  simp only [targetBits, BitVec.getLsbD_extractLsb', BitVec.getLsbD_append]
  interval_cases i <;> simp

/-- Settles O53: where the address can be reached its field is the target, and elsewhere there is none. -/
theorem assembledJumpsReachTheirAddress : Obligations.AssembledJumpsReachTheirAddress := by
  intro own a
  refine ⟨?_, fun hno => ?_⟩
  · rintro ⟨target, rfl⟩
    have hreach := jumpReaches_targetBits own target
    obtain ⟨hpage, halign⟩ := (jumpReaches_iff own _).mp hreach
    exact ⟨jumpField (targetBits own target), if_pos hreach, if_pos hreach, targetBits_jumpField hpage halign⟩
  · have hreach : ¬ jumpReaches own a = true := fun h =>
      have ⟨hpage, halign⟩ := (jumpReaches_iff own a).mp h
      hno ⟨jumpField a, targetBits_jumpField hpage halign⟩
    exact ⟨if_neg hreach, if_neg hreach⟩

/-! ## The pseudo-instructions (O52) -/

section Pseudo

variable (s : State) (r rs : RegNum)

theorem exec_asmMove : exec (asmMove r rs) s = s.finish r (s.readReg rs) := by
  rw [asmMove, exec_or, aluOr_eq, State.readReg_zero, BitVec.or_zero]

theorem exec_asmLi (imm : BitVec 16) : exec (asmLi r imm) s = s.finish r (BitVec.ofInt 32 imm.toInt) := by
  rw [asmLi, exec_addi, aluAdd_immSigned, State.readReg_zero, BitVec.toInt_zero, Int.zero_add]

/-- `clear` is `move` from register 0. -/
theorem exec_asmClear : exec (asmClear r) s = s.finish r 0#32 := exec_asmMove s r 0#5

variable {s}

/-- `State.finish_effect` without the frame. -/
theorem State.finish_writes (h : s.Quiet) (v : Word) :
    ∃ t, s.finish r v = .next t ∧ RegWritten s t r v ∧ t.pc = s.pc + 4#32 := by
  obtain ⟨t, hfinish, hreg, hpc, -⟩ := State.finish_effect h r v
  exact ⟨t, hfinish, hreg, hpc⟩

end Pseudo

/-- Settles O52: `move`, `li` and `clear` end in one register write, and `halt` is a jump that reaches its own
address. -/
theorem pseudoInstructionsDoAsNamed : Obligations.PseudoInstructionsDoAsNamed := by
  refine ⟨decode_zero_word, fun s rd rs hquiet => ?_, fun s rt imm hquiet => ?_, fun s rd hquiet => ?_,
    fun own halign => ⟨jumpField own, rfl, targetBits_jumpField rfl halign⟩⟩
  · rw [exec_asmMove]
    exact State.finish_writes rd hquiet _
  · rw [exec_asmLi]
    exact State.finish_writes rt hquiet _
  · rw [exec_asmClear]
    exact State.finish_writes rd hquiet _

end Sys2Proof.Machine
end
